-- ==== Sys2Proof/Word.lean ====
section
/-! DEFINITION. The word types of the block: a memory cell's byte, a register's 64 bits, a register
number's 6 bits (00_scope.md R8). -/

namespace Sys2Proof

/-- The content of one memory cell (00_scope.md R8). -/
abbrev Byte := BitVec 8

/-- The content of one register, and a command word (00_scope.md R8, 30_encoding.md R80). -/
abbrev Word := BitVec 64

/-- A register number, 0x00 to 0x3F (00_scope.md R8). -/
abbrev RegNum := BitVec 6

end Sys2Proof
end

