-- ==== Sys2Proof/Machine/ByteOrder.lean ====
section
/-! DEFINITION. Big-endian byte sequences (00_scope.md R11, 20_memory.md R64). -/

namespace Sys2Proof.Machine

/-- `BE(s)`: the byte sequence read as a big-endian number, most significant byte first (00_scope.md
R11). -/
def be : List Byte → Nat
  | [] => 0
  | x :: xs => x.toNat * 256 ^ xs.length + be xs

/-- `BE_n(v)`: the `n`-byte big-endian sequence of `v` (00_scope.md R11). -/
def beBytes : Nat → Nat → List Byte
  | 0, _ => []
  | n + 1, v => BitVec.ofNat 8 (v / 256 ^ n) :: beBytes n v

end Sys2Proof.Machine
end

