-- ==== Sys2Proof/Syntax.lean ====
section
/-! DEFINITION. The instructions (one constructor per row of spec/opcode_table.json), the two kinds of
encoding (a command word, a host bus tuple), the host program's items, and the two agents. -/

namespace Sys2Proof

/-- The nine rows of the opcode table. The first three are ENGINE's commands (format CMD64), the other
six the host's transactions (format HOSTBUS). -/
inductive Instr where
  /-- DECODE: parse one frame and unmask it in place (40_frame_decoder.md R120). -/
  | decode
  /-- ENCODE: build one unmasked frame; FOPC and FIN are immediates (42_frame_encoder.md R170). -/
  | encode (fopc : BitVec 4) (fin : Bool)
  /-- XORMASK: apply the rolling key to a region in place (41_masking_engine.md R145). -/
  | xormask
  /-- RD: RegRead (43_host_transactions.md R191). -/
  | rd (r : RegNum)
  /-- WR: RegWrite of a register other than CMD (43_host_transactions.md R192). -/
  | wr (r : RegNum) (v : Word)
  /-- WR_CMD: command issue (43_host_transactions.md R193). -/
  | wrCmd (v : Word)
  /-- MRD: MemRead (43_host_transactions.md R194). -/
  | mrd (addr : Nat)
  /-- MWR: MemWrite (43_host_transactions.md R195). -/
  | mwr (addr : Nat) (b : Byte)
  /-- RST: reset assertion (43_host_transactions.md R196). -/
  | rst
  deriving DecidableEq, Repr

/-- The kind of a bus tuple (30_encoding.md R87). -/
inductive BusKind where
  | rd | wr | mrd | mwr | rst
  deriving DecidableEq, Repr

/-- The bus encoding of a host transaction: kind, index and value; `none` is the tuple's "-"
(30_encoding.md R87). Index and value are numbers, so that a tuple no transaction has can be written
down, and refused. -/
structure BusTuple where
  kind  : BusKind
  index : Option Nat
  value : Option Nat
  deriving DecidableEq, Repr

/-- What the decoder reads: the block has two encodings of instructions, the command word of
30_encoding.md R80 and the bus tuple of R87. -/
inductive Encoding where
  | command (w : Word)
  | bus (t : BusTuple)
  deriving DecidableEq, Repr

/-- Why an encoding is no instruction. -/
inductive Reject where
  /-- A command word whose OP is 0x0 or 0x4-0xF (30_encoding.md R84). -/
  | reservedOp (op : BitVec 4)
  /-- A command word that sets a bit which must be 0 for its OP (30_encoding.md R84). -/
  | mustBeZero (op : BitVec 4)
  /-- A register number above 0x3F (30_encoding.md R87). -/
  | noSuchRegister (index : Nat)
  /-- A value wider than the transaction's value (43_host_transactions.md R192, R193, R195). -/
  | valueTooWide (value : Nat)
  /-- A tuple with a field its kind has not, or without one its kind has (30_encoding.md R87). -/
  | malformedTuple
  deriving DecidableEq, Repr

/-- One item of a host program (43_host_transactions.md R190). `txn` is one transaction. `wait` and
`copy` are the two pseudo-instructions of 30_encoding.md R88 that use what a transaction returned;
every other pseudo-instruction expands to a list of these (Machine/HostProgram.lean). -/
inductive HostOp where
  | txn (t : BusTuple)
  /-- `L: rd STATUS -> s; if s[0] == 1 goto L`. -/
  | wait
  /-- For i in 0..n-1: `lb src+i -> t; sb dst+i, t`. -/
  | copy (src dst n : Nat)
  deriving DecidableEq, Repr

/-- The two agents (10_state.md R20). -/
inductive Agent where
  | host | engine
  deriving DecidableEq, Repr, Inhabited

end Sys2Proof
end

