-- ==== Sys2Proof/WellFormed.lean ====
section
/-! DEFINITION. Which instructions and which host programs are well formed on a machine of a given
MEM_SIZE (43_host_transactions.md R192, R194, R195; 93_implementation_defined.md U15). -/

namespace Sys2Proof

/-- An instruction is well formed when a WR does not name CMD (that transaction is WR_CMD, R193) and a
memory transaction's address lies below MEM_SIZE (R194, R195). The widths of every other operand are
in its type. -/
def Instr.wellFormed (memSize : Nat) : Instr → Bool
  | .decode => true
  | .encode _ _ => true
  | .xormask => true
  | .rd _ => true
  | .wr r _ => r != 0#6
  | .wrCmd _ => true
  | .mrd a => decide (a < memSize)
  | .mwr a _ => decide (a < memSize)
  | .rst => true

/-- True of the six host transactions, false of ENGINE's three commands (opcode_table.json, formats
HOSTBUS and CMD64). -/
def Instr.isTransaction : Instr → Bool
  | .decode => false
  | .encode _ _ => false
  | .xormask => false
  | .rd _ => true
  | .wr _ _ => true
  | .wrCmd _ => true
  | .mrd _ => true
  | .mwr _ _ => true
  | .rst => true

/-- True of the two transactions that raise no HAZARD while BUSY: a STATUS read and reset
(43_host_transactions.md R196, 70_reset_and_hazards.md R245). -/
def Instr.allowedWhileBusy : Instr → Bool
  | .decode => false
  | .encode _ _ => false
  | .xormask => false
  | .rd r => r == 1#6
  | .wr _ _ => false
  | .wrCmd _ => false
  | .mrd _ => false
  | .mwr _ _ => false
  | .rst => true

end Sys2Proof
end

