-- ==== Sys2Proof/Decode.lean ====
section
/-! DEFINITION. The decoder of command words (30_encoding.md R81-R86) and of host bus tuples (R87), total
and rejecting by name, and after it the encoder written from the same tables. -/

namespace Sys2Proof

/-- ENGINE's dispatch on a command word (30_encoding.md R85). -/
def decodeCommand (w : Word) : Except Reject Instr :=
  let op := w.extractLsb' 0 4
  if op = 1#4 then
    if w.extractLsb' 4 60 = 0#60 then .ok .decode else .error (.mustBeZero op)
  else if op = 2#4 then
    if w.extractLsb' 9 55 = 0#55 then .ok (.encode (w.extractLsb' 4 4) (w.getLsbD 8))
    else .error (.mustBeZero op)
  else if op = 3#4 then
    if w.extractLsb' 4 60 = 0#60 then .ok .xormask else .error (.mustBeZero op)
  else .error (.reservedOp op)

/-- The register number a tuple's index names (30_encoding.md R87: 0x00 to 0x3F). -/
def decodeRegNum (r : Nat) : Except Reject RegNum :=
  if r < 64 then .ok (BitVec.ofNat 6 r) else .error (.noSuchRegister r)

/-- A tuple's value as a number of `width` bits, refused when it does not fit. -/
def decodeValue (width v : Nat) : Except Reject (BitVec width) :=
  if v < 2 ^ width then .ok (BitVec.ofNat width v) else .error (.valueTooWide v)

/-- The host transaction a bus tuple encodes (30_encoding.md R87). A WR of register 0x00 is the command
issue WR_CMD (43_host_transactions.md R193). -/
def decodeBus : BusTuple → Except Reject Instr
  | ⟨.rd, some r, none⟩ =>
    match decodeRegNum r with
    | .ok r => .ok (.rd r)
    | .error e => .error e
  | ⟨.wr, some r, some v⟩ =>
    match decodeRegNum r, decodeValue 64 v with
    | .ok r, .ok v => .ok (if r = 0#6 then .wrCmd v else .wr r v)
    | .error e, _ => .error e
    | _, .error e => .error e
  | ⟨.mrd, some a, none⟩ => .ok (.mrd a)
  | ⟨.mwr, some a, some b⟩ =>
    match decodeValue 8 b with
    | .ok b => .ok (.mwr a b)
    | .error e => .error e
  | ⟨.rst, none, none⟩ => .ok .rst
  | _ => .error .malformedTuple

/-- The decoder: total on every word and every tuple. -/
def decode : Encoding → Except Reject Instr
  | .command w => decodeCommand w
  | .bus t => decodeBus t

/-- The encoder: the command word (30_encoding.md R81, R82) or the bus tuple (R87) of an instruction. -/
def encode : Instr → Encoding
  | .decode => .command 0x1#64
  | .encode fopc fin => .command (0#55 ++ BitVec.ofBool fin ++ fopc ++ 2#4)
  | .xormask => .command 0x3#64
  | .rd r => .bus ⟨.rd, some r.toNat, none⟩
  | .wr r v => .bus ⟨.wr, some r.toNat, some v.toNat⟩
  | .wrCmd v => .bus ⟨.wr, some 0, some v.toNat⟩
  | .mrd a => .bus ⟨.mrd, some a, none⟩
  | .mwr a b => .bus ⟨.mwr, some a, some b.toNat⟩
  | .rst => .bus ⟨.rst, none, none⟩

/-- One row of the opcode map of command words (30_encoding.md R86). -/
structure OpcodeRow where
  matchBits : Word
  mask      : Word
  deriving DecidableEq, Repr

/-- A word selects a row iff `w & mask == match` (30_encoding.md R86). -/
def OpcodeRow.selects (row : OpcodeRow) (w : Word) : Bool := w &&& row.mask == row.matchBits

/-- The three rows of 30_encoding.md R86, as the table writes them. -/
def decodeRow : OpcodeRow := ⟨0x0000000000000001#64, 0xFFFFFFFFFFFFFFFF#64⟩
def encodeRow : OpcodeRow := ⟨0x0000000000000002#64, 0xFFFFFFFFFFFFFE0F#64⟩
def xormaskRow : OpcodeRow := ⟨0x0000000000000003#64, 0xFFFFFFFFFFFFFFFF#64⟩

/-- The instruction of an opcode-table row's bits. Only the command rows (CMD64) have bits: a command
word is 64 bits, of which the row's `nbits` low ones are given and the rest are 0. A host transaction
is a tuple and has no bits in the table (log entry 11). -/
def decodeTableWord (nbits w : Nat) : Option Instr :=
  if nbits ≤ 64 then
    match decodeCommand (BitVec.ofNat 64 (w % 2 ^ nbits)) with
    | .ok i => some i
    | .error _ => none
  else none

end Sys2Proof
end

