-- ==== Sys2Proof/Config.lean ====
section
/-! DEFINITION. What the spec leaves open: the memory size, and which of two enabled agents moves next.
Both are constants without a body, so no proof can use a value of either. -/

namespace Sys2Proof.Config

/-- Fixes `memSize`; nothing constrains it (log entry 1). -/
opaque memSizeRoom : Word

/-- MEM_SIZE of the machine that State.reset powers on (00_scope.md R7): some number from 1 to 2^64,
each of them possible, none of them chosen (log entry 1). -/
def memSize : Nat := (2 ^ 64 - 1 - memSizeRoom.toNat) + 1

/-- The agent that moves at the n-th point where both are enabled and State.schedule says nothing
(10_state.md R20: "either agent may take the next step"; log entry 3). -/
opaque freeAgent : Nat → Agent

end Sys2Proof.Config
end

