-- ==== Sys2Proof/Machine/State.lean ====
section
/-! DEFINITION. The machine's state as plain data: the register file, the byte memory, the pending
command and the recorded model faults (10_state.md R22), and the model's own bookkeeping of the host
program and the schedule (R23). -/

namespace Sys2Proof.Machine

/-- The registers of 10_state.md R26, under its names. -/
inductive RegName where
  | cmd | status
  | decBase | decAvail | decHdr | decPlen | decPoff | decKey | decFlen
  | encSrc | encLen | encDst | encCap | encOutlen
  | xorBase | xorLen | xorKey
  deriving DecidableEq, Repr

/-- The register file: one 64-bit value per register of 10_state.md R26. A number that R26 does not list
has no storage (R27). -/
structure Regs where
  cmd       : Word
  status    : Word
  decBase   : Word
  decAvail  : Word
  decHdr    : Word
  decPlen   : Word
  decPoff   : Word
  decKey    : Word
  decFlen   : Word
  encSrc    : Word
  encLen    : Word
  encDst    : Word
  encCap    : Word
  encOutlen : Word
  xorBase   : Word
  xorLen    : Word
  xorKey    : Word
  deriving DecidableEq, Repr

/-- Every register 0 (10_state.md R48, 70_reset_and_hazards.md R241). -/
def Regs.zero : Regs :=
  { cmd := 0, status := 0
    decBase := 0, decAvail := 0, decHdr := 0, decPlen := 0, decPoff := 0, decKey := 0, decFlen := 0
    encSrc := 0, encLen := 0, encDst := 0, encCap := 0, encOutlen := 0
    xorBase := 0, xorLen := 0, xorKey := 0 }

/-- The byte memory (20_memory.md R60): MEM_SIZE, and the cells that hold a byte, addresses rising. An
address that is not listed holds no value (R62). MEM_SIZE is the configuration of 00_scope.md R7: no
step changes it (log entry 1). -/
structure Memory where
  size  : Nat
  cells : List Host.Cell
  deriving DecidableEq, Repr

/-- The model faults of 60_exceptions.md R213. They are what State.faults records, and what `step`
answers in a state that has recorded one. Both are SAFE: the spec gives the hardware no meaning there,
so nothing is claimed. -/
inductive Fault where
  /-- UNINIT: a command's read or a host MemRead met a cell that holds no value; `addr` is the first such
  address (60_exceptions.md R214). Recorded by DECODE, ENCODE, XORMASK and MRD. Safe. -/
  | uninit (addr : Nat)
  /-- HAZARD: a host transaction other than a STATUS read and reset while BUSY = 1 (60_exceptions.md
  R215). Recorded by RD, WR, WR_CMD, MRD and MWR. Safe. -/
  | hazard
  deriving DecidableEq, Repr

/-- Why a step has no meaning. -/
inductive Refusal where
  /-- An instruction whose arm of `exec` has no meaning yet. Safe. -/
  | notModelled (mnemonic : String)
  /-- MRD or MWR at an address at or above MEM_SIZE: "no transaction at all" (43_host_transactions.md
  R194, R195; 93_implementation_defined.md U15). Raised by MRD and MWR. Safe. -/
  | addressOutsideMemory (addr : Nat)
  /-- The host program holds a tuple that encodes no transaction (30_encoding.md R87). Raised by `step`
  when the host reaches it. Safe. -/
  | notATransaction (t : BusTuple)
  deriving DecidableEq, Repr

/-- What a host transaction returned: the value of a register (43_host_transactions.md R191) or the byte
of a cell (R194). -/
inductive Observed where
  | register (r : RegNum) (v : Word)
  | byte (addr : Nat) (b : Byte)
  deriving DecidableEq, Repr

/-- The whole state. The first four fields are the spec's (10_state.md R22); the last four are the
model's own and no hardware (R23 makes the host program and the schedule parameters of the step
relation). -/
structure State where
  regs     : Regs
  mem      : Memory
  /-- The issued command word not yet carried out (10_state.md R22, R46). -/
  pending  : Option Word
  /-- The recorded model faults, a set kept as a list without repeats (60_exceptions.md R213). -/
  faults   : List Fault
  /-- What the host goes on to send (log entry 4). -/
  host     : List HostOp
  /-- What the host's transactions returned, oldest first (log entry 7). -/
  observed : List Observed
  /-- Who moves at the next points where both agents are enabled (log entry 3). -/
  schedule : List Agent
  /-- How many such points the free value Config.freeAgent has decided (log entry 3). -/
  choices  : Nat
  deriving DecidableEq, Repr

/-- The power-on state of a machine with `memSize` cells (70_reset_and_hazards.md R240-R242): every
register 0, nothing pending, no cell holding a value, no fault, and a host that sends nothing yet. -/
def State.powerOn (memSize : Nat) : State :=
  { regs := Regs.zero, mem := { size := memSize, cells := [] }, pending := none, faults := []
    host := [], observed := [], schedule := [], choices := 0 }

/-- The machine right after power-on, for the MEM_SIZE the configuration leaves open (log entry 1). -/
def State.reset : State := State.powerOn Config.memSize

end Sys2Proof.Machine
end

