-- ==== Sys2Proof/Machine/Flags.lean ====
section
/-! DEFINITION. The flags: the fields of STATUS (10_state.md R29), the error codes (60_exceptions.md R210)
and stages (10_state.md R33), and the malformed-header flags of DEC_HDR (10_state.md R36,
40_frame_decoder.md R111). -/

namespace Sys2Proof.Machine

/-- The error codes a command can finish with (60_exceptions.md R210). -/
inductive ErrorCode where
  | ok | truncated | range | capacity | overlap | badCommand
  deriving DecidableEq, Repr

/-- STATUS.ERR of an error code (60_exceptions.md R210). -/
def errorBits : ErrorCode → BitVec 4
  | .ok => 0#4
  | .truncated => 1#4
  | .range => 2#4
  | .capacity => 3#4
  | .overlap => 4#4
  | .badCommand => 5#4

/-- The stage that found a truncation; `none` for every other outcome (10_state.md R33). -/
inductive Stage where
  | none | hdr | ext | key | payload
  deriving DecidableEq, Repr

/-- STATUS.STAGE of a stage (10_state.md R29, R33). -/
def stageBits : Stage → BitVec 3
  | .none => 0#3
  | .hdr => 1#3
  | .ext => 2#3
  | .key => 3#3
  | .payload => 4#3

/-- The fields of STATUS (10_state.md R29). -/
structure StatusFields where
  busy  : Bool
  done  : Bool
  err   : BitVec 4
  stage : BitVec 3
  op    : BitVec 4
  deriving DecidableEq, Repr

/-- The STATUS word of its fields: BUSY 0, DONE 1, ERR 7:4, STAGE 10:8, OP 15:12, every other bit 0
(10_state.md R29). -/
def statusWord (f : StatusFields) : Word :=
  0#48 ++ f.op ++ 0#1 ++ f.stage ++ f.err ++ 0#2 ++ BitVec.ofBool f.done ++ BitVec.ofBool f.busy

/-- The fields of a STATUS word (10_state.md R29). -/
def statusFields (w : Word) : StatusFields :=
  { busy := w.getLsbD 0, done := w.getLsbD 1
    err := w.extractLsb' 4 4, stage := w.extractLsb' 8 3, op := w.extractLsb' 12 4 }

/-- STATUS.BUSY of a state (10_state.md R29). -/
def State.busy (s : State) : Bool := (statusFields s.regs.status).busy

/-- RSV_NZ, OPC_UNSUP and MALFORMED (40_frame_decoder.md R111). -/
structure HeaderFlags where
  rsvNz     : Bool
  opcUnsup  : Bool
  malformed : Bool
  deriving DecidableEq, Repr

/-- The malformed-header detector: a reserved bit set, or an opcode other than 0x1 (40_frame_decoder.md
R111). -/
def headerFlags (rsv1 rsv2 rsv3 : Bool) (opc : BitVec 4) : HeaderFlags :=
  let rsvNz := rsv1 || rsv2 || rsv3
  let opcUnsup := opc != 1#4
  { rsvNz := rsvNz, opcUnsup := opcUnsup, malformed := rsvNz || opcUnsup }

/-- DEC_HDR of a decoded frame: `{MALFORMED, OPC_UNSUP, RSV_NZ, h0, h1}` (10_state.md R36,
40_frame_decoder.md R120). -/
def decHdrWord (f : HeaderFlags) (h0 h1 : Byte) : Word :=
  0#45 ++ BitVec.ofBool f.malformed ++ BitVec.ofBool f.opcUnsup ++ BitVec.ofBool f.rsvNz ++ h0 ++ h1

end Sys2Proof.Machine
end

