-- ==== Sys2Proof/Machine/Ops.lean ====
section
/-! DEFINITION. The named operations every meaning is written over: byte memory, the register file,
recording a model fault, issuing a command, ending one, and reset. -/

namespace Sys2Proof.Machine

/-! ### Memory (20_memory.md R60-R63) -/

/-- What an address that is not listed reads as: no value (20_memory.md R62). A write stores a byte,
never "no value", so no write has to remove an entry. -/
def unlisted : Option Byte := none

/-- The content of address `a` in a list of cells. -/
def lookupCell : List Host.Cell → Nat → Option Byte
  | [], _ => unlisted
  | (k, v) :: rest, a => if k = a then some v else lookupCell rest a

/-- The cells after a write of `b` at `a`, kept rising by address. -/
def insertCell : List Host.Cell → Nat → Byte → List Host.Cell
  | [], a, b => [(a, b)]
  | (k, v) :: rest, a, b =>
    if a < k then (a, b) :: (k, v) :: rest
    else if a = k then (a, b) :: rest
    else (k, v) :: insertCell rest a b

/-- The cells outside `[lo, hi)`. -/
def dropCells (lo hi : Nat) : List Host.Cell → List Host.Cell
  | [] => []
  | (k, v) :: rest => if lo ≤ k ∧ k < hi then dropCells lo hi rest else (k, v) :: dropCells lo hi rest

/-- The byte at `a`, or no value (20_memory.md R60, R62). -/
def Memory.read (m : Memory) (a : Nat) : Option Byte := lookupCell m.cells a

/-- `mem[a] <- b`. -/
def Memory.write (m : Memory) (a : Nat) (b : Byte) : Memory := { m with cells := insertCell m.cells a b }

/-- `MemRead(a, n)`: the `n` bytes from `a`, or the first address among them that holds no value
(00_scope.md R11). -/
def Memory.readBytes (m : Memory) : Nat → Nat → Except Nat (List Byte)
  | _, 0 => .ok []
  | a, n + 1 =>
    match m.read a with
    | none => .error a
    | some b =>
      match Memory.readBytes m (a + 1) n with
      | .ok bs => .ok (b :: bs)
      | .error a' => .error a'

/-- `MemWrite(a, |s|, s)` (00_scope.md R11). -/
def Memory.writeBytes (m : Memory) : Nat → List Byte → Memory
  | _, [] => m
  | a, b :: bs => Memory.writeBytes (m.write a b) (a + 1) bs

/-- The cells of `[b, b+n)`, clipped to memory, lose their value (70_reset_and_hazards.md R242). -/
def Memory.forget (m : Memory) (b n : Nat) : Memory :=
  { m with cells := dropCells b (min (b + n) m.size) m.cells }

/-- A region is in range iff `b + n <= MEM_SIZE`, on unbounded naturals (20_memory.md R63). -/
abbrev Memory.inRange (m : Memory) (b n : Nat) : Prop := b + n ≤ m.size

/-- Addresses strictly rise from `lo` on and stay below `size`. -/
def risingCells (size : Nat) : Nat → List Host.Cell → Bool
  | _, [] => true
  | lo, (k, _) :: rest => decide (lo ≤ k) && decide (k < size) && risingCells size (k + 1) rest

/-- The canonical form of a memory: addresses strictly rising, all below MEM_SIZE (20_memory.md R60). No
listed entry can equal what an unlisted address reads as, since that is no value. -/
def Memory.wf (m : Memory) : Bool := risingCells m.size 0 m.cells

/-! ### The register file (10_state.md R24-R27) -/

/-- The register of a number; `none` for a number 10_state.md R26 does not list (R27). -/
def regNameOf (r : RegNum) : Option RegName :=
  match r.toNat with
  | 0x00 => some .cmd
  | 0x01 => some .status
  | 0x08 => some .decBase
  | 0x09 => some .decAvail
  | 0x0A => some .decHdr
  | 0x0B => some .decPlen
  | 0x0C => some .decPoff
  | 0x0D => some .decKey
  | 0x0E => some .decFlen
  | 0x10 => some .encSrc
  | 0x11 => some .encLen
  | 0x12 => some .encDst
  | 0x13 => some .encCap
  | 0x14 => some .encOutlen
  | 0x18 => some .xorBase
  | 0x19 => some .xorLen
  | 0x1A => some .xorKey
  | _ => none

/-- The number of a register (10_state.md R26). -/
def regNumOf : RegName → RegNum
  | .cmd => 0x00#6
  | .status => 0x01#6
  | .decBase => 0x08#6
  | .decAvail => 0x09#6
  | .decHdr => 0x0A#6
  | .decPlen => 0x0B#6
  | .decPoff => 0x0C#6
  | .decKey => 0x0D#6
  | .decFlen => 0x0E#6
  | .encSrc => 0x10#6
  | .encLen => 0x11#6
  | .encDst => 0x12#6
  | .encCap => 0x13#6
  | .encOutlen => 0x14#6
  | .xorBase => 0x18#6
  | .xorLen => 0x19#6
  | .xorKey => 0x1A#6

/-- The access types of 10_state.md R25. -/
inductive Access where
  | rw | rwWarl | ro | cmd
  deriving DecidableEq, Repr

/-- The access type of a register (10_state.md R26). -/
def regAccess : RegName → Access
  | .cmd => .cmd
  | .status => .ro
  | .decBase => .rw
  | .decAvail => .rw
  | .decHdr => .ro
  | .decPlen => .ro
  | .decPoff => .ro
  | .decKey => .ro
  | .decFlen => .ro
  | .encSrc => .rw
  | .encLen => .rw
  | .encDst => .rw
  | .encCap => .rw
  | .encOutlen => .ro
  | .xorBase => .rw
  | .xorLen => .rw
  | .xorKey => .rwWarl

/-- The implemented bits of a register (10_state.md R26); the others read 0. -/
def implementedBits : RegName → Word
  | .cmd => BitVec.allOnes 64
  | .status => 0x000000000000F7F3#64
  | .decBase => BitVec.allOnes 64
  | .decAvail => BitVec.allOnes 64
  | .decHdr => 0x000000000007FFFF#64
  | .decPlen => BitVec.allOnes 64
  | .decPoff => BitVec.allOnes 64
  | .decKey => 0x00000000FFFFFFFF#64
  | .decFlen => BitVec.allOnes 64
  | .encSrc => BitVec.allOnes 64
  | .encLen => BitVec.allOnes 64
  | .encDst => BitVec.allOnes 64
  | .encCap => BitVec.allOnes 64
  | .encOutlen => BitVec.allOnes 64
  | .xorBase => BitVec.allOnes 64
  | .xorLen => BitVec.allOnes 64
  | .xorKey => 0x00000000FFFFFFFF#64

/-- The stored value of a register. -/
def Regs.get (g : Regs) : RegName → Word
  | .cmd => g.cmd
  | .status => g.status
  | .decBase => g.decBase
  | .decAvail => g.decAvail
  | .decHdr => g.decHdr
  | .decPlen => g.decPlen
  | .decPoff => g.decPoff
  | .decKey => g.decKey
  | .decFlen => g.decFlen
  | .encSrc => g.encSrc
  | .encLen => g.encLen
  | .encDst => g.encDst
  | .encCap => g.encCap
  | .encOutlen => g.encOutlen
  | .xorBase => g.xorBase
  | .xorLen => g.xorLen
  | .xorKey => g.xorKey

/-- The register file with one register's stored value replaced. -/
def Regs.set (g : Regs) (r : RegName) (v : Word) : Regs :=
  match r with
  | .cmd => { g with cmd := v }
  | .status => { g with status := v }
  | .decBase => { g with decBase := v }
  | .decAvail => { g with decAvail := v }
  | .decHdr => { g with decHdr := v }
  | .decPlen => { g with decPlen := v }
  | .decPoff => { g with decPoff := v }
  | .decKey => { g with decKey := v }
  | .decFlen => { g with decFlen := v }
  | .encSrc => { g with encSrc := v }
  | .encLen => { g with encLen := v }
  | .encDst => { g with encDst := v }
  | .encCap => { g with encCap := v }
  | .encOutlen => { g with encOutlen := v }
  | .xorBase => { g with xorBase := v }
  | .xorLen => { g with xorLen := v }
  | .xorKey => { g with xorKey := v }

/-- What a host read of register number `r` returns: the register's implemented bits, or 0 for an
unmapped number (10_state.md R24, R27). -/
def Regs.readNumber (g : Regs) (r : RegNum) : Word :=
  match regNameOf r with
  | some n => g.get n &&& implementedBits n
  | none => 0#64

/-! ### Model faults, command issue and command end -/

/-- Records a model fault and does nothing else (60_exceptions.md R213-R215). `faults` is a set: a fault
already recorded is not listed twice. -/
def State.recordFault (s : State) (k : Fault) : State :=
  { s with faults := if k ∈ s.faults then s.faults else s.faults ++ [k] }

/-- The hazard check that comes first in every transaction but a STATUS read and reset
(70_reset_and_hazards.md R245). -/
def State.unlessBusy (s : State) (k : State) : State :=
  if s.busy then s.recordFault .hazard else k

/-- `MemRead(a, n)` inside a command: the rest of the command runs on the bytes, or UNINIT is recorded
with the first address that holds no value and the command's remaining writes do not happen
(60_exceptions.md R214). -/
def State.readingBytes (s : State) (a n : Nat) (k : List Byte → State) : State :=
  match s.mem.readBytes a n with
  | .ok bs => k bs
  | .error a' => s.recordFault (.uninit a')

/-- `MemRead(a, 1)` inside a command (60_exceptions.md R214). -/
def State.readingByte (s : State) (a : Nat) (k : Byte → State) : State :=
  match s.mem.read a with
  | some b => k b
  | none => s.recordFault (.uninit a)

/-- `finish(code, stage)`: the only normal end of a command (10_state.md R31). OP is not changed. -/
def State.finish (s : State) (code : ErrorCode) (stage : Stage) : State :=
  { s with
    regs := { s.regs with
      status := statusWord
        { busy := false, done := true, err := errorBits code, stage := stageBits stage
          op := (statusFields s.regs.status).op } }
    pending := none }

/-- What ENGINE makes of an illegal command word: it finishes BAD_COMMAND and writes nothing else
(30_encoding.md R84). -/
def State.badCommand (s : State) : State := s.finish .badCommand .none

/-- The writes of a command issue (43_host_transactions.md R193). -/
def State.issue (s : State) (w : Word) : State :=
  { s with
    regs := { s.regs with
      cmd := w
      status := statusWord
        { busy := true, done := false, err := 0#4, stage := 0#3, op := w.extractLsb' 0 4 } }
    pending := some w }

/-- A host write of `v` to register number `r`, by its access type (10_state.md R25, R27): RW stores,
RW-WARL stores the implemented bits, RO and unmapped ignore, CMD issues a command. -/
def State.writeRegister (s : State) (r : RegNum) (v : Word) : State :=
  match regNameOf r with
  | none => s
  | some n =>
    match regAccess n with
    | .rw => { s with regs := s.regs.set n v }
    | .rwWarl => { s with regs := s.regs.set n (v &&& implementedBits n) }
    | .ro => s
    | .cmd => s.issue v

/-- The host gets a value back. -/
def State.observe (s : State) (o : Observed) : State := { s with observed := s.observed ++ [o] }

/-! ### Reset (70_reset_and_hazards.md R240-R243) -/

/-- The region of effect of a pending command word, base and length, from the operand registers
(70_reset_and_hazards.md R242). An illegal word has the empty one. -/
def regionOfEffect (g : Regs) (w : Word) : Nat × Nat :=
  match decodeCommand w with
  | .ok .decode => (g.decBase.toNat, g.decAvail.toNat)
  | .ok (.encode _ _) => (g.encDst.toNat, g.encCap.toNat)
  | .ok .xormask => (g.xorBase.toNat, g.xorLen.toNat)
  | .ok _ => (0, 0)
  | .error _ => (0, 0)

/-- The `rst` transaction's effect: every register 0 and nothing pending; memory is kept, but a pending
command's region of effect loses its values (70_reset_and_hazards.md R241-R243). Recorded faults stay
(60_exceptions.md R213). -/
def State.resetAssert (s : State) : State :=
  { s with
    regs := Regs.zero
    mem :=
      match s.pending with
      | none => s.mem
      | some w => s.mem.forget (regionOfEffect s.regs w).1 (regionOfEffect s.regs w).2
    pending := none }

end Sys2Proof.Machine
end

