-- ==== Sys2Proof/Machine/Operands.lean ====
section
/-! DEFINITION. The operand forms: a mask key and its packing in a register (10_state.md R39, R44), and
the register operands of the three commands (30_encoding.md R83: whole registers, unsigned). -/

namespace Sys2Proof.Machine

/-- A mask key: four bytes in wire order, `k0` at the lowest address (30_encoding.md R92). -/
structure Key where
  k0 : Byte
  k1 : Byte
  k2 : Byte
  k3 : Byte
  deriving DecidableEq, Repr

/-- `key[i]`, for the rolling index `i` mod 4 (41_masking_engine.md R140). -/
def keyByte (key : Key) (i : Fin 4) : Byte :=
  match i with
  | 0 => key.k0
  | 1 => key.k1
  | 2 => key.k2
  | 3 => key.k3

/-- The key packed into 32 bits, `k0` in bits 31:24 (10_state.md R39, R44). -/
def keyWord (key : Key) : BitVec 32 := key.k0 ++ key.k1 ++ key.k2 ++ key.k3

/-- The key packed in bits 31:0 of a register (10_state.md R44, 41_masking_engine.md R143). -/
def keyOfRegister (v : Word) : Key :=
  { k0 := v.extractLsb' 24 8, k1 := v.extractLsb' 16 8, k2 := v.extractLsb' 8 8, k3 := v.extractLsb' 0 8 }

/-- The value of DEC_KEY for a key (10_state.md R39): bits 63:32 are 0. -/
def keyRegister (key : Key) : Word := 0#32 ++ keyWord key

/-- The four bytes of a key read from memory at `a`, in memory order (40_frame_decoder.md R114). -/
def State.readingKey (s : State) (a : Nat) (k : Key → State) : State :=
  s.readingByte a fun k0 => s.readingByte (a + 1) fun k1 =>
  s.readingByte (a + 2) fun k2 => s.readingByte (a + 3) fun k3 => k ⟨k0, k1, k2, k3⟩

/-- DECODE's operands, `b` and `n` (40_frame_decoder.md R120). -/
abbrev decBaseOf (s : State) : Nat := s.regs.decBase.toNat
abbrev decAvailOf (s : State) : Nat := s.regs.decAvail.toNat

/-- ENCODE's register operands, `src`, `L`, `d` and `cap` (42_frame_encoder.md R170). -/
abbrev encSrcOf (s : State) : Nat := s.regs.encSrc.toNat
abbrev encLenOf (s : State) : Nat := s.regs.encLen.toNat
abbrev encDstOf (s : State) : Nat := s.regs.encDst.toNat
abbrev encCapOf (s : State) : Nat := s.regs.encCap.toNat

/-- XORMASK's operands, `b`, `n` and the key of XOR_KEY[31:0] (41_masking_engine.md R145). -/
abbrev xorBaseOf (s : State) : Nat := s.regs.xorBase.toNat
abbrev xorLenOf (s : State) : Nat := s.regs.xorLen.toNat
abbrev xorKeyOf (s : State) : Key := keyOfRegister s.regs.xorKey

end Sys2Proof.Machine
end

