-- ==== Sys2Proof/Machine/MaskingEngine.lean ====
section
/-! DEFINITION. The XOR masking engine and the XORMASK command (41_masking_engine.md). -/

namespace Sys2Proof.Machine

/-- The engine's run over a region with the rolling key index at `i`: one byte, then the index advances
mod 4 (10_state.md R46, 41_masking_engine.md R140, R141). -/
def maskFrom (key : Key) : Fin 4 → List Byte → List Byte
  | _, [] => []
  | i, x :: xs => (x ^^^ keyByte key i) :: maskFrom key (i + 1) xs

/-- `xor_mask(s, key)`: the index starts at 0 at the first byte (41_masking_engine.md R140, R141). -/
def xorMask (s : List Byte) (key : Key) : List Byte := maskFrom key 0 s

/-- `rot(key, r)` (41_masking_engine.md R142). -/
def rotateKey (key : Key) (r : Fin 4) : Key :=
  { k0 := keyByte key r, k1 := keyByte key (r + 1), k2 := keyByte key (r + 2), k3 := keyByte key (r + 3) }

/-- XORMASK's transition (41_masking_engine.md R145). -/
def xormaskRegion (s : State) : State :=
  if s.mem.inRange (xorBaseOf s) (xorLenOf s) then
    s.readingBytes (xorBaseOf s) (xorLenOf s) fun bs =>
      State.finish { s with mem := s.mem.writeBytes (xorBaseOf s) (xorMask bs (xorKeyOf s)) } .ok .none
  else s.finish .range .none

/-- XORMASK (41_masking_engine.md R145). -/
def execXormask (s : State) : Host.Outcome State Fault Refusal := .next (xormaskRegion s)

end Sys2Proof.Machine
end

