-- ==== Sys2Proof/Machine/FrameDecoder.lean ====
section
/-! DEFINITION. The header unpacker, the length decoder and the DECODE command (40_frame_decoder.md). -/

namespace Sys2Proof.Machine

/-- The seven fields of a frame's two header bytes (40_frame_decoder.md R110). -/
structure Header where
  fin  : Bool
  rsv1 : Bool
  rsv2 : Bool
  rsv3 : Bool
  opc  : BitVec 4
  mask : Bool
  len7 : BitVec 7
  deriving DecidableEq, Repr

/-- `unpack(h0, h1)` (40_frame_decoder.md R110; bit positions of 30_encoding.md R90). -/
def unpack (h0 h1 : Byte) : Header :=
  { fin := h0.getLsbD 7, rsv1 := h0.getLsbD 6, rsv2 := h0.getLsbD 5, rsv3 := h0.getLsbD 4
    opc := h0.extractLsb' 0 4, mask := h1.getLsbD 7, len7 := h1.extractLsb' 0 7 }

/-- `ext_size(len7)`: 0, 2 or 8 bytes of extension (40_frame_decoder.md R112). -/
def extSize (len7 : BitVec 7) : Nat :=
  if len7.toNat ≤ 125 then 0 else if len7.toNat = 126 then 2 else 8

/-- `length(len7, x)` (40_frame_decoder.md R113). -/
def payloadLength (len7 : BitVec 7) (x : List Byte) : Nat :=
  if len7.toNat ≤ 125 then len7.toNat else be x

/-- The number of key bytes, `kl = 4 * mask` (40_frame_decoder.md R114). -/
def keySize (mask : Bool) : Nat := if mask then 4 else 0

/-- The payload offset `p = 2 + e + kl` (40_frame_decoder.md R114). -/
def payloadOffset (h : Header) : Nat := 2 + extSize h.len7 + keySize h.mask

/-- The five result registers of DECODE written together. -/
def State.writeDecResults (s : State) (hdr plen poff key flen : Word) : State :=
  { s with regs := { s.regs with
      decHdr := hdr, decPlen := plen, decPoff := poff, decKey := key, decFlen := flen } }

/-- `dec_fail(code, stage)`: every DECODE result register 0, memory untouched (40_frame_decoder.md
R120, R126; 60_exceptions.md R211). -/
def State.decFail (s : State) (code : ErrorCode) (stage : Stage) : State :=
  (s.writeDecResults 0 0 0 0 0).finish code stage

/-- The end of a successful DECODE: the result registers of a frame with header bytes `h0 h1`, key
register value `key`, payload length `len` (40_frame_decoder.md R120, 10_state.md R36-R40). -/
def State.decDone (s : State) (h0 h1 : Byte) (len : Nat) (key : Word) : State :=
  let h := unpack h0 h1
  let p := payloadOffset h
  (s.writeDecResults (decHdrWord (headerFlags h.rsv1 h.rsv2 h.rsv3 h.opc) h0 h1)
    (BitVec.ofNat 64 len) (BitVec.ofNat 64 p) key (BitVec.ofNat 64 (p + len))).finish .ok .none

/-- The payload part of DECODE for a masked frame: read, unmask, write back, finish
(40_frame_decoder.md R120, R122). -/
def State.decMasked (s : State) (h0 h1 : Byte) (len : Nat) (key : Key) : State :=
  let a := decBaseOf s + payloadOffset (unpack h0 h1)
  s.readingBytes a len fun bs =>
    State.decDone { s with mem := s.mem.writeBytes a (xorMask bs key) } h0 h1 len (keyRegister key)

/-- DECODE from the point where the header bytes and the payload length are known: the KEY check, the
key, the PAYLOAD check, the payload (40_frame_decoder.md R120, R124). -/
def State.decPayload (s : State) (h0 h1 : Byte) (len : Nat) : State :=
  let h := unpack h0 h1
  let p := payloadOffset h
  if decAvailOf s < p then s.decFail .truncated .key
  else if h.mask then
    s.readingKey (decBaseOf s + 2 + extSize h.len7) fun key =>
      if decAvailOf s - p < len then s.decFail .truncated .payload else s.decMasked h0 h1 len key
  else if decAvailOf s - p < len then s.decFail .truncated .payload
  else s.decDone h0 h1 len 0#64

/-- DECODE from the point where the header bytes are known: the EXT check and the extension
(40_frame_decoder.md R120, R124). -/
def State.decExtension (s : State) (h0 h1 : Byte) : State :=
  let e := extSize (unpack h0 h1).len7
  if decAvailOf s < 2 + e then s.decFail .truncated .ext
  else s.readingBytes (decBaseOf s + 2) e fun x =>
    s.decPayload h0 h1 (payloadLength (unpack h0 h1).len7 x)

/-- DECODE's transition (40_frame_decoder.md R120): RANGE, then the header. -/
def decodeFrame (s : State) : State :=
  if s.mem.inRange (decBaseOf s) (decAvailOf s) then
    if decAvailOf s < 2 then s.decFail .truncated .hdr
    else
      s.readingByte (decBaseOf s) fun h0 => s.readingByte (decBaseOf s + 1) fun h1 =>
        s.decExtension h0 h1
  else s.decFail .range .none

/-- DECODE (40_frame_decoder.md R120). -/
def execDecode (s : State) : Host.Outcome State Fault Refusal := .next (decodeFrame s)

end Sys2Proof.Machine
end

