-- ==== Sys2Proof/Machine/FrameEncoder.lean ====
section
/-! DEFINITION. The header packer, the length encoder, the payload multiplexer and the ENCODE command
(42_frame_encoder.md). -/

namespace Sys2Proof.Machine

/-- `pack(fin, opc, len7)`'s byte 0: FIN, RSV1-3 = 0, opcode (42_frame_encoder.md R160, R161). -/
def packByte0 (fin : Bool) (opc : BitVec 4) : Byte := BitVec.ofBool fin ++ 0#3 ++ opc

/-- `pack(fin, opc, len7)`'s byte 1: MASK = 0, len7 (42_frame_encoder.md R160, R161). -/
def packByte1 (len7 : BitVec 7) : Byte := 0#1 ++ len7

/-- `pack(fin, opc, len7)` (42_frame_encoder.md R160). -/
def pack (fin : Bool) (opc : BitVec 4) (len7 : BitVec 7) : List Byte :=
  [packByte0 fin opc, packByte1 len7]

/-- `encode_length(L)`: the 7-bit length field and the extension bytes (42_frame_encoder.md R162). -/
def encodeLength (len : Nat) : BitVec 7 × List Byte :=
  if len ≤ 125 then (BitVec.ofNat 7 len, [])
  else if len ≤ 65535 then (126#7, beBytes 2 len)
  else (127#7, beBytes 8 len)

/-- Header and extension of a frame with `len` payload bytes. -/
def frameHead (opc : BitVec 4) (fin : Bool) (len : Nat) : List Byte :=
  pack fin opc (encodeLength len).1 ++ (encodeLength len).2

/-- `frame(opc, fin, P)`: the payload multiplexer's whole output, header, extension, payload
(42_frame_encoder.md R164, R165). -/
def frame (opc : BitVec 4) (fin : Bool) (p : List Byte) : List Byte := frameHead opc fin p.length ++ p

/-- `T = 2 + |x| + L` (42_frame_encoder.md R164). -/
abbrev frameLength (len : Nat) : Nat := 2 + (encodeLength len).2.length + len

/-- `enc_fail(code)`: ENC_OUTLEN 0, memory untouched (42_frame_encoder.md R170, 60_exceptions.md
R211). -/
def State.encFail (s : State) (code : ErrorCode) : State :=
  State.finish { s with regs := { s.regs with encOutlen := 0 } } code .none

/-- The end of a successful ENCODE (42_frame_encoder.md R170). -/
def State.encDone (s : State) (total : Nat) : State :=
  State.finish { s with regs := { s.regs with encOutlen := BitVec.ofNat 64 total } } .ok .none

/-- Whether the source region meets the destination frame (42_frame_encoder.md R171). -/
abbrev encOverlaps (src len dst total : Nat) : Prop := 0 < len ∧ src < dst + total ∧ dst < src + len

/-- ENCODE's transition (42_frame_encoder.md R170, R171): RANGE, CAPACITY, OVERLAP, then the frame. -/
def encodeFrame (fopc : BitVec 4) (fin : Bool) (s : State) : State :=
  let total := frameLength (encLenOf s)
  if s.mem.inRange (encSrcOf s) (encLenOf s) ∧ s.mem.inRange (encDstOf s) (encCapOf s) then
    if encCapOf s < total then s.encFail .capacity
    else if encOverlaps (encSrcOf s) (encLenOf s) (encDstOf s) total then s.encFail .overlap
    else
      s.readingBytes (encSrcOf s) (encLenOf s) fun bs =>
        State.encDone { s with mem := s.mem.writeBytes (encDstOf s) (frameHead fopc fin (encLenOf s) ++ bs) }
          total
  else s.encFail .range

/-- ENCODE (42_frame_encoder.md R170). -/
def execEncode (fopc : BitVec 4) (fin : Bool) (s : State) : Host.Outcome State Fault Refusal :=
  .next (encodeFrame fopc fin s)

end Sys2Proof.Machine
end

