-- ==== Sys2Proof/Machine/HostTransactions.lean ====
section
/-! DEFINITION. The six host transactions (43_host_transactions.md R190-R196). -/

namespace Sys2Proof.Machine

/-- RegRead: allowed while BUSY only of STATUS; a read has no side effect (43_host_transactions.md
R191). -/
def readRegister (r : RegNum) (s : State) : State :=
  if s.busy ∧ r ≠ regNumOf .status then s.recordFault .hazard
  else s.observe (.register r (s.regs.readNumber r))

/-- RD (43_host_transactions.md R191). -/
def execRd (r : RegNum) (s : State) : Host.Outcome State Fault Refusal := .next (readRegister r s)

/-- WR: the write by access type of 10_state.md R25 (43_host_transactions.md R192). The row's `r` is
never CMD (Instr.wellFormed); a term that names CMD writes it as R25 says, which is a command issue (log
entry 10). -/
def execWr (r : RegNum) (v : Word) (s : State) : Host.Outcome State Fault Refusal :=
  .next (s.unlessBusy (s.writeRegister r v))

/-- WR_CMD: command issue (43_host_transactions.md R193). -/
def execWrCmd (v : Word) (s : State) : Host.Outcome State Fault Refusal :=
  .next (s.unlessBusy (s.issue v))

/-- The byte at `a` goes to the host, or UNINIT is recorded (43_host_transactions.md R194). -/
def readCell (a : Nat) (s : State) : State :=
  s.readingByte a fun b => s.observe (.byte a b)

/-- MRD; an address at or above MEM_SIZE is no transaction and is refused (43_host_transactions.md
R194). -/
def execMrd (a : Nat) (s : State) : Host.Outcome State Fault Refusal :=
  if a < s.mem.size then .next (s.unlessBusy (readCell a s)) else .refused (.addressOutsideMemory a)

/-- MWR; an address at or above MEM_SIZE is no transaction and is refused (43_host_transactions.md
R195). -/
def execMwr (a : Nat) (b : Byte) (s : State) : Host.Outcome State Fault Refusal :=
  if a < s.mem.size then .next (s.unlessBusy { s with mem := s.mem.write a b })
  else .refused (.addressOutsideMemory a)

/-- RST (43_host_transactions.md R196, 70_reset_and_hazards.md R240-R243). -/
def execRst (s : State) : Host.Outcome State Fault Refusal := .next s.resetAssert

end Sys2Proof.Machine
end

