-- ==== Sys2Proof/Machine/Dispatch.lean ====
section
/-! DEFINITION. One arm per constructor of Instr, each one call of its meaning. -/

namespace Sys2Proof.Machine

def exec (i : Instr) (s : State) : Host.Outcome State Fault Refusal :=
  match i with
  -- ENGINE's commands
  | .decode => Sys2Proof.Machine.execDecode s
  | .encode fopc fin => Sys2Proof.Machine.execEncode fopc fin s
  | .xormask => Sys2Proof.Machine.execXormask s
  -- the host's transactions
  | .rd r => Sys2Proof.Machine.execRd r s
  | .wr r v => Sys2Proof.Machine.execWr r v s
  | .wrCmd v => Sys2Proof.Machine.execWrCmd v s
  | .mrd a => Sys2Proof.Machine.execMrd a s
  | .mwr a b => Sys2Proof.Machine.execMwr a b s
  | .rst => Sys2Proof.Machine.execRst s

end Sys2Proof.Machine
end

