-- ==== Sys2Proof/Machine/HostProgram.lean ====
section
/-! DEFINITION. The host program as data: the pseudo-instructions of 30_encoding.md R88 and their
expansions, and which transaction a program sends next. -/

namespace Sys2Proof.Machine

/-! ### Transactions and pseudo-instructions (30_encoding.md R87, R88) -/

/-- `rd REG`. -/
def hostRd (r : RegNum) : HostOp := .txn ⟨.rd, some r.toNat, none⟩

/-- `wr REG, v`. -/
def hostWr (r : RegNum) (v : Word) : HostOp := .txn ⟨.wr, some r.toNat, some v.toNat⟩

/-- `lb A`. -/
def hostLb (a : Nat) : HostOp := .txn ⟨.mrd, some a, none⟩

/-- `sb A, b`. -/
def hostSb (a : Nat) (b : Byte) : HostOp := .txn ⟨.mwr, some a, some b.toNat⟩

/-- `rst`. -/
def hostRst : HostOp := .txn ⟨.rst, none, none⟩

/-- `sbs A, b0 b1 ... bk`. -/
def hostSbs : Nat → List Byte → List HostOp
  | _, [] => []
  | a, b :: bs => hostSb a b :: hostSbs (a + 1) bs

/-- The ASCII bytes of a text, no terminator (`sbs A, "text"`). -/
def asciiBytes (text : String) : List Byte := text.toList.map fun c => BitVec.ofNat 8 c.toNat

/-- `lbs A, n`. -/
def hostLbs : Nat → Nat → List HostOp
  | _, 0 => []
  | a, n + 1 => hostLb a :: hostLbs (a + 1) n

/-- `cmd decode`. -/
def hostCmdDecode : HostOp := hostWr (regNumOf .cmd) 0x1#64

/-- `cmd encode opc=o fin=f`: the word 0x2 + o*0x10 + f*0x100. -/
def hostCmdEncode (opc : BitVec 4) (fin : Bool) : HostOp :=
  hostWr (regNumOf .cmd) (BitVec.ofNat 64 (0x2 + opc.toNat * 0x10 + fin.toNat * 0x100))

/-- `cmd xormask`. -/
def hostCmdXormask : HostOp := hostWr (regNumOf .cmd) 0x3#64

/-- `decode b, n`. -/
def hostDecode (b n : Word) : List HostOp :=
  [hostWr (regNumOf .decBase) b, hostWr (regNumOf .decAvail) n, hostCmdDecode, .wait]

/-- `encode o, f, src, len, dst, cap`. -/
def hostEncode (opc : BitVec 4) (fin : Bool) (src len dst cap : Word) : List HostOp :=
  [hostWr (regNumOf .encSrc) src, hostWr (regNumOf .encLen) len, hostWr (regNumOf .encDst) dst,
    hostWr (regNumOf .encCap) cap, hostCmdEncode opc fin, .wait]

/-- `xormask b, n, k`. -/
def hostXormask (b n k : Word) : List HostOp :=
  [hostWr (regNumOf .xorBase) b, hostWr (regNumOf .xorLen) n, hostWr (regNumOf .xorKey) k,
    hostCmdXormask, .wait]

/-! ### Running a host program -/

/-- The transaction a program sends next, and the program left once it is sent. `wait` reads STATUS and
stays while BUSY; `copy` reads one byte and goes on to write it (30_encoding.md R88). -/
def fetchHost (s : State) : List HostOp → Option (BusTuple × List HostOp)
  | [] => none
  | .txn t :: rest => some (t, rest)
  | .wait :: rest =>
    some (⟨.rd, some (regNumOf .status).toNat, none⟩, if s.busy then .wait :: rest else rest)
  | .copy _ _ 0 :: rest => fetchHost s rest
  | .copy src dst (n + 1) :: rest =>
    some (⟨.mrd, some src, none⟩,
      match s.mem.read src with
      | some b => hostSb dst b :: .copy (src + 1) (dst + 1) n :: rest
      | none => rest)

/-- The host's next transaction in a state. -/
def State.nextTransaction (s : State) : Option (BusTuple × List HostOp) := fetchHost s s.host

/-- Whether a host program's item is well formed on a memory of `memSize` cells (43_host_transactions.md
R194, R195). -/
def hostOpWellFormed (memSize : Nat) : HostOp → Bool
  | .txn t =>
    match decodeBus t with
    | .ok i => i.wellFormed memSize
    | .error _ => false
  | .wait => true
  | .copy src dst n => n == 0 || (decide (src + n ≤ memSize) && decide (dst + n ≤ memSize))

/-- The program's well-formedness check (43_host_transactions.md R194). -/
def hostProgramWellFormed (memSize : Nat) (p : List HostOp) : Bool := p.all (hostOpWellFormed memSize)

/-! ### Which agent moves (10_state.md R20, R21; 43_host_transactions.md R190) -/

/-- ENGINE's step is enabled exactly when a command is pending and no model fault is recorded
(10_state.md R21). -/
def State.engineEnabled (s : State) : Bool := s.pending.isSome && s.faults.isEmpty

/-- A host step is enabled when the program has a further transaction and no model fault is recorded
(43_host_transactions.md R190). -/
def State.hostEnabled (s : State) : Bool := s.nextTransaction.isSome && s.faults.isEmpty

/-- Who wins a point where both agents are enabled: the schedule says, and where it says nothing, a free
value (log entry 3). -/
def State.choice (s : State) : Agent :=
  match s.schedule with
  | a :: _ => a
  | [] => Config.freeAgent s.choices

/-- The agent that takes the next step; `none` when neither is enabled. -/
def State.mover (s : State) : Option Agent :=
  match s.engineEnabled, s.hostEnabled with
  | true, true => some s.choice
  | true, false => some .engine
  | false, true => some .host
  | false, false => none

/-- The state once the next mover is settled: a point where both agents are enabled uses up one choice. -/
def State.takeTurn (s : State) : State :=
  if s.engineEnabled && s.hostEnabled then
    match s.schedule with
    | _ :: rest => { s with schedule := rest }
    | [] => { s with choices := s.choices + 1 }
  else s

end Sys2Proof.Machine
end

