-- ==== Sys2Proof/Machine/Step.lean ====
section
/-! DEFINITION. One step of the machine: the agent that moves, and what it does. -/

namespace Sys2Proof.Machine

/-- ENGINE's step on the pending word `w`: the dispatch of 30_encoding.md R85, as one atomic transition
(10_state.md R21). -/
def engineStep (w : Word) (s : State) : Host.Outcome State Fault Refusal :=
  match decodeCommand w with
  | .ok i => exec i s
  | .error _ => .next s.badCommand

/-- HOST's step: the transaction `t` is sent and the program `rest` is left (43_host_transactions.md
R190). A tuple that encodes no transaction is refused (log entry 6). -/
def hostStep (t : BusTuple) (rest : List HostOp) (s : State) : Host.Outcome State Fault Refusal :=
  match decodeBus t with
  | .ok i => exec i { s with host := rest }
  | .error _ => .refused (.notATransaction t)

/-- One step. A state with a recorded model fault is quiescent and stops with that fault
(60_exceptions.md R213, log entry 2). Where neither agent is enabled the block is idle and nothing
changes (60_exceptions.md R227, log entry 5). -/
def step (s : State) : Host.Outcome State Fault Refusal :=
  match s.faults with
  | k :: _ => .fault k
  | [] =>
    match s.mover, s.pending, s.nextTransaction with
    | some .engine, some w, _ => engineStep w s.takeTurn
    | some .host, _, some (t, rest) => hostStep t rest s.takeTurn
    | _, _, _ => .next s

/-- The state in which the very next step is ENGINE's, on the command word with the low `nbits` bits of
`w`: the host has just issued it (43_host_transactions.md R193), no fault is recorded, and the schedule
names ENGINE (log entry 8). -/
def State.withFetchWord (s : State) (nbits w : Nat) : State :=
  { s.issue (BitVec.ofNat 64 (w % 2 ^ nbits)) with faults := [], schedule := .engine :: s.schedule }

end Sys2Proof.Machine
end

