-- ==== Sys2Proof/Machine/Runs.lean ====
section
/-! DEFINITION. The step relation with its two parameters, the host program and the schedule (10_state.md
R23), and its runs. A program here is any sequence of transactions, finite or infinite, that may branch on
the values the host has read (43_host_transactions.md R190); `step` runs the programs that are data. -/

namespace Sys2Proof.Machine

/-- A host program: the transaction it sends once it has sent `n` and been returned the values `obs`,
oldest first; `none` when it has no further one (43_host_transactions.md R190, log entry 4). -/
abbrev HostProgram := Nat → List Observed → Option BusTuple

/-- The straight-line program of a list of transactions. -/
def HostProgram.ofList (ts : List BusTuple) : HostProgram := fun n _ => ts[n]?

/-- `wait`: a STATUS read, and again while bit 0 of the value read last is 1 (30_encoding.md R88). The first
read is sent whatever was read before the program began. -/
def HostProgram.wait : HostProgram := fun n obs =>
  let poll : Option BusTuple := some ⟨.rd, some (regNumOf .status).toNat, none⟩
  match n, obs.getLast? with
  | _ + 1, some (.register r v) => if r = regNumOf .status ∧ v.getLsbD 0 = false then none else poll
  | _ + 1, some (.byte _ _) => poll
  | _ + 1, none => poll
  | 0, _ => poll

/-- The program's well-formedness check: everything it may send is a transaction of a memory of `memSize`
cells (43_host_transactions.md R194, log entry 6). -/
def HostProgram.wellFormed (memSize : Nat) (P : HostProgram) : Prop :=
  ∀ n obs t, P n obs = some t → ∃ i, decodeBus t = .ok i ∧ i.wellFormed memSize = true

/-- Which agent moves where both are enabled, at each point of a run (10_state.md R20, R23, log entry 3). -/
abbrev Schedule := Nat → Agent

/-- A point of a run: the machine's state and how many transactions the host has sent. -/
structure Play where
  state : State
  sent  : Nat
  deriving DecidableEq, Repr

/-- The transaction the program sends next. -/
def Play.transaction (P : HostProgram) (c : Play) : Option BusTuple := P c.sent c.state.observed

/-- Whether an agent's step is enabled (10_state.md R21, 43_host_transactions.md R190). -/
def Play.enabled (P : HostProgram) (c : Play) : Agent → Bool
  | .engine => c.state.engineEnabled
  | .host => (c.transaction P).isSome && c.state.faults.isEmpty

/-- The agent that moves when the schedule names `a`: `a` if it is enabled, else the other one if that is. -/
def Play.mover (P : HostProgram) (a : Agent) (c : Play) : Option Agent :=
  let other : Agent := match a with | .host => .engine | .engine => .host
  if c.enabled P a then some a else if c.enabled P other then some other else none

/-- An outcome of the machine at the point where the host has sent `n` transactions. -/
def outcomeAt (n : Nat) : Host.Outcome State Fault Refusal → Host.Outcome Play Fault Refusal
  | .next t => .next { state := t, sent := n }
  | .fault k => .fault k
  | .refused r => .refused r

/-- One step of the relation for the program `P`, at a point where the schedule names `a` (10_state.md R20,
R21, 43_host_transactions.md R190). -/
def Play.next (P : HostProgram) (a : Agent) (c : Play) : Host.Outcome Play Fault Refusal :=
  match c.mover P a, c.state.pending, c.transaction P with
  | some .engine, some w, _ => outcomeAt c.sent (engineStep w c.state)
  | some .host, _, some t => outcomeAt (c.sent + 1) (hostStep t c.state.host c.state)
  | _, _, _ => .next c

/-- The run of a program under a schedule: the point after `n` steps. Where no agent can step, and after a
transaction that is refused, the run stays where it is (log entry 18). -/
def play (P : HostProgram) (σ : Schedule) (c : Play) : Nat → Play
  | 0 => c
  | n + 1 =>
    match (play P σ c n).next P (σ n) with
    | .next d => d
    | .fault _ => play P σ c n
    | .refused _ => play P σ c n

end Sys2Proof.Machine
end

