-- ==== Sys2Proof/Safety.lean ====
section
/-! DEFINITION. What counts as a good run, in the terms claims use: final and failed states and runs, weakly
fair schedules and hangs, the end-of-run observation (43_host_transactions.md R197), and the invariant
every step keeps. -/

namespace Sys2Proof.Machine

/-- A run is final when the host program has no further transaction, nothing is pending and no model
fault is recorded (43_host_transactions.md R197). -/
def State.final (s : State) : Bool := s.nextTransaction.isNone && s.pending.isNone && s.faults.isEmpty

/-- A state with a recorded fault: quiescent, and never final (60_exceptions.md R213). -/
def State.faulted (s : State) : Bool := !s.faults.isEmpty

/-- A state in which no agent can step and which is not final is a failed run (43_host_transactions.md
R197). -/
def State.failed (s : State) : Bool := s.mover.isNone && !s.final

/-- A point of a run is final when the program has no further transaction, nothing is pending and no model
fault is recorded (43_host_transactions.md R197). -/
def Play.final (P : HostProgram) (c : Play) : Bool :=
  (c.transaction P).isNone && c.state.pending.isNone && c.state.faults.isEmpty

/-- A point at which no agent can step and which is not final is a failed run (43_host_transactions.md
R197). -/
def Play.failed (P : HostProgram) (c : Play) : Bool :=
  !c.enabled P .host && !c.enabled P .engine && !c.final P

/-- A schedule is weakly fair on a run when no agent stays enabled from some point on without moving again
(70_reset_and_hazards.md R250, 43_host_transactions.md R197; DEDUCED, log entry 16). -/
def weaklyFair (P : HostProgram) (σ : Schedule) (c : Play) : Prop :=
  ∀ (a : Agent) (n : Nat), (∀ m, n ≤ m → (play P σ c m).enabled P a = true) →
    ∃ m, n ≤ m ∧ (play P σ c m).mover P (σ m) = some a

/-- A hang: a run that never becomes final under a weakly fair schedule (43_host_transactions.md R197). By
these words a failed run is one too (log entry 16). -/
def hangs (P : HostProgram) (σ : Schedule) (c : Play) : Prop :=
  weaklyFair P σ c ∧ ∀ n, (play P σ c n).final P = false

/-- What the end of a run shows: the values the host's transactions returned, the registers, and the
cells that hold a value (43_host_transactions.md R197). -/
structure EndObservation where
  returned : List Observed
  regs     : Regs
  cells    : List Host.Cell
  deriving DecidableEq, Repr

/-- The end-of-run observation of a state (43_host_transactions.md R197). -/
def State.endObservation (s : State) : EndObservation :=
  { returned := s.observed, regs := s.regs, cells := s.mem.cells }

/-- The cells from `a` on hold the bytes `bs`. -/
def Memory.holds (m : Memory) (a : Nat) (bs : List Byte) : Prop :=
  ∀ i, (h : i < bs.length) → m.read (a + i) = some bs[i]

/-- Every cell outside `[a, a+n)` reads in `m'` as in `m`. -/
def Memory.sameOutside (m m' : Memory) (a n : Nat) : Prop :=
  ∀ x, x < a ∨ a + n ≤ x → m'.read x = m.read x

/-- `s` after a command whose registers are now `regs` and whose memory is now `mem`, and which is no
longer pending: nothing else of the state has changed. -/
def State.ended (s : State) (regs : Regs) (mem : Memory) : State :=
  { s with regs := regs, mem := mem, pending := none }

/-- The STATUS word after `finish`: BUSY 0, DONE 1, OP as before (10_state.md R31). -/
def State.finishedStatus (s : State) (err : BitVec 4) (stage : BitVec 3) : Word :=
  statusWord ⟨false, true, err, stage, (statusFields s.regs.status).op⟩

/-- The invariant of the reachable states. -/
structure State.Inv (s : State) : Prop where
  /-- Memory is canonical and has between 1 and 2^64 cells (20_memory.md R60, 00_scope.md R7). -/
  memWf : s.mem.wf = true
  memSize : 1 ≤ s.mem.size ∧ s.mem.size ≤ 2 ^ 64
  /-- BUSY is 1 exactly when a command is pending (10_state.md R30). -/
  busyIff : s.busy = true ↔ s.pending ≠ none
  /-- DONE is 0 while BUSY (10_state.md R29). -/
  doneIdle : (statusFields s.regs.status).done = true → s.busy = false
  /-- The bits 10_state.md R26 does not implement hold 0. -/
  unimplemented : ∀ r : RegName, s.regs.get r &&& ~~~(implementedBits r) = 0#64
  /-- ERR and STAGE hold produced values only, STAGE is nonzero only with TRUNCATED, and both are 0 while
  BUSY (10_state.md R29, R32, R33; 60_exceptions.md R210). -/
  errRange : (statusFields s.regs.status).err.toNat ≤ 5
  stageRange : (statusFields s.regs.status).stage.toNat ≤ 4
  stageTruncated : (statusFields s.regs.status).stage ≠ 0#3 ↔ (statusFields s.regs.status).err = 1#4
  errIdle : s.busy = true → (statusFields s.regs.status).err = 0#4
  /-- OP is bits 3:0 of the last command word, which CMD holds; a pending word is that word
  (10_state.md R28, R34). -/
  opCmd : (statusFields s.regs.status).op = s.regs.cmd.extractLsb' 0 4
  pendingCmd : ∀ w, s.pending = some w → s.regs.cmd = w
  /-- DEC_POFF holds 0 or a payload offset, and DEC_FLEN is DEC_POFF + DEC_PLEN (10_state.md R38, R40). -/
  decPoff : s.regs.decPoff.toNat ∈ [0, 2, 4, 6, 8, 10, 14]
  decFlen : s.regs.decFlen.toNat = s.regs.decPoff.toNat + s.regs.decPlen.toNat

end Sys2Proof.Machine
end

