-- ==== Sys2Proof/Certificates/Slice0/Obligations.lean ====
section
/-! DEFINITION. The statements for the provers. Each docstring names the rules of spec/ it comes from. -/

open Sys2Proof Sys2Proof.Machine

/-! ## Encodings -/

/-- 30_encoding.md R81, R82, R87: decoding what the encoder wrote gives the instruction back, for every
well-formed instruction and every operand value. -/
def Obligations.DecodeInvertsEncode : Prop :=
  ∀ (memSize : Nat) (i : Instr), i.wellFormed memSize = true → decode (encode i) = .ok i

/-- 30_encoding.md R81-R87: an encoding that decodes is the encoding of what it decodes to, so no bit of a
word and no field of a tuple is ignored. -/
def Obligations.EncodeInvertsDecode : Prop :=
  ∀ (e : Encoding) (i : Instr), decode e = .ok i → encode i = e

/-- 30_encoding.md R86: the dispatch is the opcode map; a word that selects no row is rejected and finishes
BAD_COMMAND, and no word selects two. -/
def Obligations.CommandDispatchIsTheOpcodeMap : Prop :=
  ∀ w : Word,
    (decodeCommand w = .ok .decode ↔ w &&& 0xFFFFFFFFFFFFFFFF#64 = 0x1#64) ∧
    (decodeCommand w = .ok (.encode (w.extractLsb' 4 4) (w.getLsbD 8)) ↔ w &&& 0xFFFFFFFFFFFFFE0F#64 = 0x2#64) ∧
    (decodeCommand w = .ok .xormask ↔ w &&& 0xFFFFFFFFFFFFFFFF#64 = 0x3#64) ∧
    ((∃ e, decodeCommand w = .error e) ↔
      decodeRow.selects w = false ∧ encodeRow.selects w = false ∧ xormaskRow.selects w = false) ∧
    ((∃ e, decodeCommand w = .error e) → ∀ s : State,
      engineStep w s = .next (s.ended { s.regs with status := s.finishedStatus 5#4 0#3 } s.mem)) ∧
    ([decodeRow, encodeRow, xormaskRow].filter fun row => row.selects w).length ≤ 1

/-- 30_encoding.md R81, R84 and 95_test_vectors.md section 6: words written out from the encoding. -/
def Obligations.CommandWordsDecodeAsWritten : Prop :=
  decodeCommand 0x1#64 = .ok .decode ∧
  decodeCommand 0x3#64 = .ok .xormask ∧
  (∀ (o : BitVec 4) (f : Bool),
    decodeCommand (BitVec.ofNat 64 (0x2 + o.toNat * 0x10 + f.toNat * 0x100)) = .ok (.encode o f)) ∧
  (∀ w ∈ [0x0#64, 0x4#64, 0xF#64, 0x11#64, 0x212#64, 0x103#64, 0x1000000000000001#64],
    ∃ e, decodeCommand w = .error e)

/-- 30_encoding.md R87: the bus tuples of the five transactions, and a register number above 0x3F, which no
read and no write can name, whatever the value. -/
def Obligations.BusTuplesDecodeAsWritten : Prop :=
  (∀ r : RegNum, decodeBus ⟨.rd, some r.toNat, none⟩ = .ok (.rd r)) ∧
  (∀ (r : RegNum) (v : Word), r ≠ 0x00#6 → decodeBus ⟨.wr, some r.toNat, some v.toNat⟩ = .ok (.wr r v)) ∧
  (∀ v : Word, decodeBus ⟨.wr, some 0x00, some v.toNat⟩ = .ok (.wrCmd v)) ∧
  (∀ a : Nat, decodeBus ⟨.mrd, some a, none⟩ = .ok (.mrd a)) ∧
  (∀ (a : Nat) (b : Byte), decodeBus ⟨.mwr, some a, some b.toNat⟩ = .ok (.mwr a b)) ∧
  decodeBus ⟨.rst, none, none⟩ = .ok .rst ∧
  (∀ r : Nat, 0x3F < r → decodeBus ⟨.rd, some r, none⟩ = .error (.noSuchRegister r)) ∧
  (∀ r v : Nat, 0x3F < r → decodeBus ⟨.wr, some r, some v⟩ = .error (.noSuchRegister r))

/-! ## The pure sub-units -/

/-- 40_frame_decoder.md R110, 30_encoding.md R90: the seven fields stand at the bits the layout gives, and
together they are the two bytes. -/
def Obligations.UnpackReadsTheHeaderLayout : Prop :=
  ∀ h0 h1 : Byte,
    let h := unpack h0 h1
    h0.toNat = h.fin.toNat * 0x80 + h.rsv1.toNat * 0x40 + h.rsv2.toNat * 0x20 + h.rsv3.toNat * 0x10 + h.opc.toNat ∧
    h1.toNat = h.mask.toNat * 0x80 + h.len7.toNat

/-- 42_frame_encoder.md R160, R161: the header packer's bytes, and that the unpacker inverts them. -/
def Obligations.PackedHeaderUnpacks : Prop :=
  ∀ (fin : Bool) (opc : BitVec 4) (len7 : BitVec 7),
    pack fin opc len7 = [packByte0 fin opc, packByte1 len7] ∧
    (packByte0 fin opc).toNat = fin.toNat * 0x80 + opc.toNat ∧
    (packByte1 len7).toNat = len7.toNat ∧
    unpack (packByte0 fin opc) (packByte1 len7) = ⟨fin, false, false, false, opc, false, len7⟩

/-- 10_state.md R36, 40_frame_decoder.md R111: the value of DEC_HDR for a frame's two header bytes. -/
def Obligations.DecHdrHoldsHeaderAndFlags : Prop :=
  ∀ h0 h1 : Byte,
    let h := unpack h0 h1
    let rsvNz := h.rsv1 || h.rsv2 || h.rsv3
    let opcUnsup := decide (h.opc ≠ 0x1#4)
    (decHdrWord (headerFlags h.rsv1 h.rsv2 h.rsv3 h.opc) h0 h1).toNat =
      h1.toNat + h0.toNat * 2 ^ 8 + rsvNz.toNat * 2 ^ 16 + opcUnsup.toNat * 2 ^ 17 +
        (rsvNz || opcUnsup).toNat * 2 ^ 18

/-- 40_frame_decoder.md R112, R113: the three branches of the length decoder, exclusive and together
complete, and the range of each. -/
def Obligations.LengthDecoderBranches : Prop :=
  ∀ (len7 : BitVec 7) (x : List Byte), x.length = extSize len7 →
    (len7.toNat ≤ 125 ∧ x = [] ∧ payloadLength len7 x = len7.toNat) ∨
    (len7.toNat = 126 ∧ (∃ x0 x1 : Byte, x = [x0, x1] ∧ payloadLength len7 x = x0.toNat * 256 + x1.toNat) ∧
      payloadLength len7 x ≤ 65535) ∨
    (len7.toNat = 127 ∧ x.length = 8 ∧
      payloadLength len7 x = ∑ i : Fin 8, (x.getD i 0#8).toNat * 256 ^ (7 - i.val) ∧
      payloadLength len7 x < 2 ^ 64)

/-- 42_frame_encoder.md R162: the three branches of the length encoder; `be x = L` with the stated number
of bytes says that `x` is BE_2(L) or BE_8(L). -/
def Obligations.LengthEncoderBranches : Prop :=
  ∀ len : Nat, len < 2 ^ 64 →
    (len ≤ 125 → (encodeLength len).1.toNat = len ∧ (encodeLength len).2 = []) ∧
    (126 ≤ len → len ≤ 65535 →
      (encodeLength len).1 = 126#7 ∧ (encodeLength len).2.length = 2 ∧ be (encodeLength len).2 = len) ∧
    (65536 ≤ len →
      (encodeLength len).1 = 127#7 ∧ (encodeLength len).2.length = 8 ∧ be (encodeLength len).2 = len)

/-- 42_frame_encoder.md R175, R163: the length decoder inverts the length encoder for every 64-bit
length. -/
def Obligations.LengthDecoderInvertsLengthEncoder : Prop :=
  ∀ len : Nat, len < 2 ^ 64 →
    (encodeLength len).2.length = extSize (encodeLength len).1 ∧
    payloadLength (encodeLength len).1 (encodeLength len).2 = len

/-- 42_frame_encoder.md R163: where the three branches meet; no encoding that the decoder reads as `len` is
shorter than the encoder's; the top bit of a 64-bit extension is 0 below 2^63; the document's cases. -/
def Obligations.LengthEncodingIsShortest : Prop :=
  (∀ (opc : BitVec 4) (fin : Bool) (len : Nat),
    (frameHead opc fin len).length = 2 + (encodeLength len).2.length ∧
    (encodeLength len).2.length = if len ≤ 125 then 0 else if len ≤ 65535 then 2 else 8) ∧
  (∀ (len7 : BitVec 7) (x : List Byte), x.length = extSize len7 →
    (encodeLength (payloadLength len7 x)).2.length ≤ x.length) ∧
  (∀ len : Nat, 65536 ≤ len → len < 2 ^ 63 →
    ∃ (x0 : Byte) (x : List Byte), (encodeLength len).2 = x0 :: x ∧ x0.msb = false) ∧
  encodeLength 125 = (125#7, []) ∧
  encodeLength 126 = (126#7, [0x00#8, 0x7E#8]) ∧
  encodeLength 65536 = (127#7, [0x00#8, 0x00#8, 0x00#8, 0x00#8, 0x00#8, 0x01#8, 0x00#8, 0x00#8])

/-- 42_frame_encoder.md R164: which byte the payload multiplexer selects for each output index. -/
def Obligations.PayloadMultiplexerSelects : Prop :=
  ∀ (opc : BitVec 4) (fin : Bool) (p : List Byte) (j : Nat),
    let len7 := (encodeLength p.length).1
    let x := (encodeLength p.length).2
    (frame opc fin p).length = 2 + x.length + p.length ∧
    (frame opc fin p)[j]? =
      if j = 0 then some (packByte0 fin opc)
      else if j = 1 then some (packByte1 len7)
      else if j < 2 + x.length then x[j - 2]?
      else p[j - 2 - x.length]?

/-- 41_masking_engine.md R140: each output byte is the input byte at the same index xor `key[i mod 4]`. -/
def Obligations.XorMaskIsBytewise : Prop :=
  ∀ (s : List Byte) (key : Key),
    (xorMask s key).length = s.length ∧
    ∀ i, (h : i < s.length) →
      (xorMask s key)[i]? = some (s[i] ^^^ [key.k0, key.k1, key.k2, key.k3].getD (i % 4) 0#8)

/-- 41_masking_engine.md R142: masking twice restores the bytes; the zero key is the identity; a sequence
in two parts is masked with the key rotated for the second. -/
def Obligations.XorMaskIsItsOwnInverse : Prop :=
  ∀ (s s2 : List Byte) (key : Key),
    let k (i : Nat) : Byte := [key.k0, key.k1, key.k2, key.k3].getD (i % 4) 0#8
    let r := s.length % 4
    xorMask (xorMask s key) key = s ∧
    xorMask s ⟨0x00#8, 0x00#8, 0x00#8, 0x00#8⟩ = s ∧
    xorMask (s ++ s2) key =
      xorMask s key ++ xorMask s2 ⟨k r, k (r + 1), k (r + 2), k (r + 3)⟩

/-- 41_masking_engine.md R143, 10_state.md R39, R44: DEC_KEY packs the key big-endian, its value written to
XOR_KEY gives the same key, and bits 63:32 do not reach the key. -/
def Obligations.KeyPackingAgrees : Prop :=
  ∀ (key : Key) (v : Word),
    (keyRegister key).toNat =
      key.k0.toNat * 2 ^ 24 + key.k1.toNat * 2 ^ 16 + key.k2.toNat * 2 ^ 8 + key.k3.toNat ∧
    keyOfRegister (keyRegister key) = key ∧
    keyOfRegister (v &&& implementedBits .xorKey) = keyOfRegister v

/-- 10_state.md R29: the bit positions of STATUS. -/
def Obligations.StatusWordLayout : Prop :=
  ∀ f : StatusFields,
    (statusWord f).toNat = f.busy.toNat + f.done.toNat * 2 + f.err.toNat * 2 ^ 4 + f.stage.toNat * 2 ^ 8 +
      f.op.toNat * 2 ^ 12

/-! ## Reset -/

/-- 10_state.md R48, 70_reset_and_hazards.md R240-R242: the power-on state for every MEM_SIZE, and that
State.reset is one of these for a MEM_SIZE from 1 to 2^64 (00_scope.md R7). -/
def Obligations.PowerOnState : Prop :=
  (∀ n : Nat,
    (∀ r : RegName, (State.powerOn n).regs.get r = 0#64) ∧
    (∀ r : RegNum, (State.powerOn n).regs.readNumber r = 0#64) ∧
    (State.powerOn n).busy = false ∧
    (State.powerOn n).pending = none ∧
    (State.powerOn n).faults = [] ∧
    (State.powerOn n).mem.size = n ∧
    ∀ a, (State.powerOn n).mem.read a = none) ∧
  ∃ n, State.reset = State.powerOn n ∧ 1 ≤ n ∧ n ≤ 2 ^ 64

/-- 70_reset_and_hazards.md R241-R243: both resets leave every register 0; power-on leaves no cell a value.
The `rst` transaction, in every state: nothing is pending; memory is kept, but the region of effect of a
pending command, clipped to memory, loses its values. The region is written out for each kind of word. -/
def Obligations.ResetTransaction : Prop :=
  (∀ (n : Nat) (r : RegName), (State.powerOn n).regs.get r = 0#64 ∧
    ∀ a, (State.powerOn n).mem.read a = none) ∧
  ∀ s : State, ∃ t : State,
    exec .rst s = .next t ∧
    t = { s with regs := t.regs, mem := t.mem, pending := none } ∧
    (∀ r : RegName, t.regs.get r = 0#64) ∧
    t.mem.size = s.mem.size ∧
    (s.pending = none → t.mem = s.mem) ∧
    ∀ w, s.pending = some w →
      let region : Nat × Nat :=
        if w = 0x1#64 then (s.regs.decBase.toNat, s.regs.decAvail.toNat)
        else if w &&& 0xFFFFFFFFFFFFFE0F#64 = 0x2#64 then (s.regs.encDst.toNat, s.regs.encCap.toNat)
        else if w = 0x3#64 then (s.regs.xorBase.toNat, s.regs.xorLen.toNat)
        else (0, 0)
      ∀ a, t.mem.read a =
        if region.1 ≤ a ∧ a < region.1 + region.2 ∧ a < s.mem.size then none else s.mem.read a

/-! ## Host transactions -/

/-- `t` is `s` with the fault `k` recorded and nothing else changed (60_exceptions.md R213-R215). -/
def onlyRecords (k : Fault) (s t : State) : Prop :=
  t = { s with faults := t.faults } ∧ (∀ j, j ∈ t.faults ↔ j = k ∨ j ∈ s.faults) ∧
  (s.faults = [] → t.faults = [k])

/-- 43_host_transactions.md R191, 10_state.md R24, R27: RegRead returns the register's implemented bits, or
0 for an unmapped number, and changes nothing of the block. STATUS can be read while BUSY; any other
register then records HAZARD. -/
def Obligations.RegReadReturnsTheRegister : Prop :=
  ∀ (s : State) (r : RegNum),
    (s.busy = false ∨ r = 0x01#6 → ∃ v : Word,
      exec (.rd r) s = .next { s with observed := s.observed ++ [.register r v] } ∧
      (∀ n : RegName, regNumOf n = r → v = s.regs.get n &&& implementedBits n) ∧
      ((∀ n : RegName, regNumOf n ≠ r) → v = 0#64)) ∧
    (s.busy = true → r ≠ 0x01#6 → ∃ t : State, exec (.rd r) s = .next t ∧ onlyRecords .hazard s t)

/-- 43_host_transactions.md R192, 10_state.md R25, R27: RegWrite by access type, for every register number
but CMD's. RW stores, RW-WARL stores the implemented bits, RO and unmapped numbers ignore; every other
register and the rest of the state stay. While BUSY it records HAZARD. -/
def Obligations.RegWriteFollowsTheAccessType : Prop :=
  ∀ (s : State) (r : RegNum) (v : Word), r ≠ 0x00#6 →
    (s.busy = false → ∃ t : State,
      exec (.wr r v) s = .next t ∧
      t = { s with regs := t.regs } ∧
      ∀ n : RegName, t.regs.get n =
        if regNumOf n = r then
          (match regAccess n with
            | .rw => v
            | .rwWarl => v &&& implementedBits n
            | .ro => s.regs.get n
            | .cmd => s.regs.get n)
        else s.regs.get n) ∧
    (s.busy = true → ∃ t : State, exec (.wr r v) s = .next t ∧ onlyRecords .hazard s t)

/-- 43_host_transactions.md R193, 10_state.md R28, R34: command issue, of a legal and of an illegal word
alike. While BUSY it records HAZARD, and the pending word stays. -/
def Obligations.CommandIssueWritesStatusAndPending : Prop :=
  ∀ (s : State) (w : Word),
    (s.busy = false → ∃ t : State,
      exec (.wrCmd w) s = .next t ∧
      t = { s with regs := t.regs, pending := some w } ∧
      t.regs.cmd = w ∧
      statusFields t.regs.status = ⟨true, false, 0#4, 0#3, w.extractLsb' 0 4⟩ ∧
      ∀ n : RegName, n ≠ .cmd → n ≠ .status → t.regs.get n = s.regs.get n) ∧
    (s.busy = true → ∃ t : State, exec (.wrCmd w) s = .next t ∧ onlyRecords .hazard s t)

/-- 43_host_transactions.md R194, 20_memory.md R62: MemRead returns the byte of a cell that holds one, and
records UNINIT for a cell that holds none, HAZARD while BUSY, each with no other effect. A host program that
holds an address at or above MEM_SIZE fails the program's check, as data (a `copy` that comes to one holds it
too) and as a parameter of the run; that the transaction itself is refused when the host reaches it, whatever
BUSY is, is the model's choice (log entry 6). -/
def Obligations.MemReadReturnsTheByte : Prop :=
  ∀ (s : State) (a : Nat),
    (s.busy = false → a < s.mem.size → ∀ b : Byte, s.mem.read a = some b →
      exec (.mrd a) s = .next { s with observed := s.observed ++ [.byte a b] }) ∧
    (s.busy = false → a < s.mem.size → s.mem.read a = none →
      ∃ t : State, exec (.mrd a) s = .next t ∧ onlyRecords (.uninit a) s t) ∧
    (s.busy = true → a < s.mem.size → ∃ t : State, exec (.mrd a) s = .next t ∧ onlyRecords .hazard s t) ∧
    (s.mem.size ≤ a →
      (∀ p : List HostOp, .txn ⟨.mrd, some a, none⟩ ∈ p → hostProgramWellFormed s.mem.size p = false) ∧
      (∀ (p : List HostOp) src dst n, .copy src dst n ∈ p → src ≤ a → a < src + n →
        hostProgramWellFormed s.mem.size p = false) ∧
      (∀ (P : HostProgram) n obs, P n obs = some ⟨.mrd, some a, none⟩ → ¬ P.wellFormed s.mem.size) ∧
      exec (.mrd a) s = .refused (.addressOutsideMemory a))

/-- 43_host_transactions.md R195: MemWrite gives its cell the byte and changes no other cell and nothing
else; while BUSY it records HAZARD. A host program that holds an address at or above MEM_SIZE fails the
program's check, as data (a `copy` that comes to one holds it too) and as a parameter of the run; that the
transaction itself is refused when the host reaches it, whatever BUSY is, is the model's choice (log
entry 6). -/
def Obligations.MemWriteWritesOneCell : Prop :=
  ∀ (s : State) (a : Nat) (b : Byte),
    (s.busy = false → a < s.mem.size → ∃ t : State,
      exec (.mwr a b) s = .next t ∧
      t = { s with mem := t.mem } ∧
      t.mem.size = s.mem.size ∧
      t.mem.read a = some b ∧
      ∀ x, x ≠ a → t.mem.read x = s.mem.read x) ∧
    (s.busy = true → a < s.mem.size → ∃ t : State, exec (.mwr a b) s = .next t ∧ onlyRecords .hazard s t) ∧
    (s.mem.size ≤ a →
      (∀ p : List HostOp, .txn ⟨.mwr, some a, some b.toNat⟩ ∈ p → hostProgramWellFormed s.mem.size p = false) ∧
      (∀ (p : List HostOp) src dst n, .copy src dst n ∈ p → dst ≤ a → a < dst + n →
        hostProgramWellFormed s.mem.size p = false) ∧
      (∀ (P : HostProgram) n obs, P n obs = some ⟨.mwr, some a, some b.toNat⟩ → ¬ P.wellFormed s.mem.size) ∧
      exec (.mwr a b) s = .refused (.addressOutsideMemory a))

/-- 70_reset_and_hazards.md R245, 60_exceptions.md R215: while BUSY every host transaction but a STATUS
read and reset records HAZARD and has no other effect; those two record nothing. -/
def Obligations.BusyTransactionsRecordHazard : Prop :=
  ∀ (s : State) (i : Instr), s.busy = true → i.isTransaction = true → i.wellFormed s.mem.size = true →
    (i ≠ .rd 0x01#6 → i ≠ .rst → ∃ t : State, exec i s = .next t ∧ onlyRecords .hazard s t) ∧
    (i = .rd 0x01#6 ∨ i = .rst → ∃ t : State, exec i s = .next t ∧ t.faults = s.faults)

/-! ## DECODE -/

/-- 40_frame_decoder.md R120, R122, 10_state.md R36-R40: a masked frame that is all there. The result
registers, the unmasked payload in place, and the frame: nothing else changes. -/
def Obligations.DecodeUnmasksAMaskedFrame : Prop :=
  ∀ (s : State) (h0 h1 : Byte) (x : List Byte) (key : Key) (p : List Byte),
    let b := s.regs.decBase.toNat
    let n := s.regs.decAvail.toNat
    let h := unpack h0 h1
    let off := 2 + x.length + 4
    b + n ≤ s.mem.size → h.mask = true → x.length = extSize h.len7 → p.length = payloadLength h.len7 x →
    off + p.length ≤ n →
    s.mem.holds b ([h0, h1] ++ x ++ [key.k0, key.k1, key.k2, key.k3] ++ p) →
    ∃ t : State,
      exec .decode s = .next t ∧
      t = s.ended
        { s.regs with
          decHdr := decHdrWord (headerFlags h.rsv1 h.rsv2 h.rsv3 h.opc) h0 h1
          decPlen := BitVec.ofNat 64 p.length
          decPoff := BitVec.ofNat 64 off
          decKey := keyRegister key
          decFlen := BitVec.ofNat 64 (off + p.length)
          status := s.finishedStatus 0#4 0#3 } t.mem ∧
      t.mem.size = s.mem.size ∧
      (∀ i, (hi : i < p.length) → t.mem.read (b + off + i) =
        some (p[i] ^^^ [key.k0, key.k1, key.k2, key.k3].getD (i % 4) 0#8)) ∧
      s.mem.sameOutside t.mem (b + off) p.length

/-- 40_frame_decoder.md R120, R127: an unmasked frame that is all there. No key, memory unchanged; the
payload cells need hold no value. -/
def Obligations.DecodeAcceptsAnUnmaskedFrame : Prop :=
  ∀ (s : State) (h0 h1 : Byte) (x : List Byte),
    let b := s.regs.decBase.toNat
    let n := s.regs.decAvail.toNat
    let h := unpack h0 h1
    let off := 2 + x.length
    let len := payloadLength h.len7 x
    b + n ≤ s.mem.size → h.mask = false → x.length = extSize h.len7 → off + len ≤ n →
    s.mem.holds b ([h0, h1] ++ x) →
    exec .decode s = .next (s.ended
      { s.regs with
        decHdr := decHdrWord (headerFlags h.rsv1 h.rsv2 h.rsv3 h.opc) h0 h1
        decPlen := BitVec.ofNat 64 len
        decPoff := BitVec.ofNat 64 off
        decKey := 0#64
        decFlen := BitVec.ofNat 64 (off + len)
        status := s.finishedStatus 0#4 0#3 } s.mem)

/-- The state a failed DECODE leaves: its five result registers 0, STATUS with the code and the stage,
nothing else changed (40_frame_decoder.md R126). -/
def decodeFailed (s : State) (err : BitVec 4) (stage : BitVec 3) : State :=
  s.ended { s.regs with decHdr := 0#64, decPlen := 0#64, decPoff := 0#64, decKey := 0#64, decFlen := 0#64
                        status := s.finishedStatus err stage } s.mem

/-- 40_frame_decoder.md R124, R125, R126: RANGE first, then the four truncation checks in their order, each
with the bytes read before it and no others. -/
def Obligations.DecodeReportsTheFirstFailingCheck : Prop :=
  ∀ s : State,
    let b := s.regs.decBase.toNat
    let n := s.regs.decAvail.toNat
    (s.mem.size < b + n → exec .decode s = .next (decodeFailed s 2#4 0#3)) ∧
    (b + n ≤ s.mem.size → n < 2 → exec .decode s = .next (decodeFailed s 1#4 1#3)) ∧
    ∀ (h0 h1 : Byte) (x : List Byte),
      let h := unpack h0 h1
      b + n ≤ s.mem.size → 2 ≤ n → s.mem.holds b [h0, h1] →
      (n < 2 + extSize h.len7 → exec .decode s = .next (decodeFailed s 1#4 2#3)) ∧
      (2 + extSize h.len7 ≤ n → x.length = extSize h.len7 → s.mem.holds (b + 2) x →
        (n < 2 + x.length + 4 → h.mask = true → exec .decode s = .next (decodeFailed s 1#4 3#3)) ∧
        (∀ key : Key, 2 + x.length + 4 ≤ n → h.mask = true →
          s.mem.holds (b + 2 + x.length) [key.k0, key.k1, key.k2, key.k3] →
          n - (2 + x.length + 4) < payloadLength h.len7 x →
          exec .decode s = .next (decodeFailed s 1#4 4#3)) ∧
        (h.mask = false → n - (2 + x.length) < payloadLength h.len7 x →
          exec .decode s = .next (decodeFailed s 1#4 4#3)))

/-- 60_exceptions.md R214, R216: a cell without a value among those DECODE reads. UNINIT is recorded with
the first such address, and nothing else happens: registers, STATUS, pending and memory stay. The read
order is header, extension, key, payload, each after the checks before it. -/
def Obligations.DecodeRecordsTheFirstEmptyCell : Prop :=
  ∀ s : State, s.faults = [] →
    let b := s.regs.decBase.toNat
    let n := s.regs.decAvail.toNat
    b + n ≤ s.mem.size → 2 ≤ n →
    (s.mem.read b = none → exec .decode s = .next { s with faults := [.uninit b] }) ∧
    (∀ h0 : Byte, s.mem.read b = some h0 → s.mem.read (b + 1) = none →
      exec .decode s = .next { s with faults := [.uninit (b + 1)] }) ∧
    ∀ (h0 h1 : Byte), s.mem.holds b [h0, h1] →
      let h := unpack h0 h1
      (∀ pre : List Byte, 2 + extSize h.len7 ≤ n → pre.length < extSize h.len7 → s.mem.holds (b + 2) pre →
        s.mem.read (b + 2 + pre.length) = none →
        exec .decode s = .next { s with faults := [.uninit (b + 2 + pre.length)] }) ∧
      (∀ x pre : List Byte, x.length = extSize h.len7 → s.mem.holds (b + 2) x → h.mask = true →
        2 + x.length + 4 ≤ n → pre.length < 4 → s.mem.holds (b + 2 + x.length) pre →
        s.mem.read (b + 2 + x.length + pre.length) = none →
        exec .decode s = .next { s with faults := [.uninit (b + 2 + x.length + pre.length)] }) ∧
      (∀ (x : List Byte) (key : Key) (pre : List Byte), x.length = extSize h.len7 → s.mem.holds (b + 2) x →
        h.mask = true → s.mem.holds (b + 2 + x.length) [key.k0, key.k1, key.k2, key.k3] →
        2 + x.length + 4 + payloadLength h.len7 x ≤ n → pre.length < payloadLength h.len7 x →
        s.mem.holds (b + 2 + x.length + 4) pre → s.mem.read (b + 2 + x.length + 4 + pre.length) = none →
        exec .decode s = .next { s with faults := [.uninit (b + 2 + x.length + 4 + pre.length)] })

/-! ## XORMASK -/

/-- 41_masking_engine.md R145, R146: XORMASK on a region that is in range and all written. -/
def Obligations.XormaskMasksItsRegion : Prop :=
  ∀ (s : State) (p : List Byte),
    let b := s.regs.xorBase.toNat
    b + p.length ≤ s.mem.size → p.length = s.regs.xorLen.toNat → s.mem.holds b p →
    ∃ t : State,
      exec .xormask s = .next t ∧
      t = s.ended { s.regs with status := s.finishedStatus 0#4 0#3 } t.mem ∧
      t.mem.size = s.mem.size ∧
      (∀ i, (hi : i < p.length) → t.mem.read (b + i) = some (p[i] ^^^
        [s.regs.xorKey.extractLsb' 24 8, s.regs.xorKey.extractLsb' 16 8, s.regs.xorKey.extractLsb' 8 8,
          s.regs.xorKey.extractLsb' 0 8].getD (i % 4) 0#8)) ∧
      s.mem.sameOutside t.mem b p.length

/-- 41_masking_engine.md R145, R147, 60_exceptions.md R214: XORMASK finishes RANGE on a region outside
memory, and records UNINIT with the first cell without a value on a region inside; memory stays. -/
def Obligations.XormaskReportsRangeAndEmptyCells : Prop :=
  ∀ s : State,
    let b := s.regs.xorBase.toNat
    let n := s.regs.xorLen.toNat
    (s.mem.size < b + n →
      exec .xormask s = .next (s.ended { s.regs with status := s.finishedStatus 2#4 0#3 } s.mem)) ∧
    (∀ pre : List Byte, b + n ≤ s.mem.size → s.faults = [] → pre.length < n → s.mem.holds b pre →
      s.mem.read (b + pre.length) = none →
      exec .xormask s = .next { s with faults := [.uninit (b + pre.length)] })

/-- 41_masking_engine.md R148, R142: running XORMASK twice with the same registers restores every cell. -/
def Obligations.XormaskTwiceRestoresMemory : Prop :=
  ∀ (s : State) (p : List Byte),
    s.regs.xorBase.toNat + p.length ≤ s.mem.size → p.length = s.regs.xorLen.toNat →
    s.mem.holds s.regs.xorBase.toNat p →
    ∃ t u : State, exec .xormask s = .next t ∧ exec .xormask t = .next u ∧
      ∀ a, u.mem.read a = s.mem.read a

/-! ## ENCODE -/

/-- 42_frame_encoder.md R170, R172, R173: ENCODE with every check passed, for every opcode and FIN. The
frame stands at ENC_DST, ENC_OUTLEN is its length, and nothing else changes. -/
def Obligations.EncodeBuildsTheFrame : Prop :=
  ∀ (s : State) (fopc : BitVec 4) (fin : Bool) (p : List Byte),
    let src := s.regs.encSrc.toNat
    let d := s.regs.encDst.toNat
    let cap := s.regs.encCap.toNat
    let total := 2 + (encodeLength p.length).2.length + p.length
    p.length = s.regs.encLen.toNat → src + p.length ≤ s.mem.size → d + cap ≤ s.mem.size → total ≤ cap →
    (p = [] ∨ d + total ≤ src ∨ src + p.length ≤ d) → s.mem.holds src p →
    ∃ t : State,
      exec (.encode fopc fin) s = .next t ∧
      t = s.ended { s.regs with encOutlen := BitVec.ofNat 64 total, status := s.finishedStatus 0#4 0#3 } t.mem ∧
      t.mem.size = s.mem.size ∧
      t.mem.holds d ([packByte0 fin fopc, packByte1 (encodeLength p.length).1] ++ (encodeLength p.length).2 ++ p) ∧
      s.mem.sameOutside t.mem d total

/-- 42_frame_encoder.md R171: ENCODE's three checks in their order. ENC_OUTLEN becomes 0, memory stays,
and no cell need hold a value. -/
def Obligations.EncodeReportsTheFirstFailingCheck : Prop :=
  ∀ (s : State) (fopc : BitVec 4) (fin : Bool),
    let src := s.regs.encSrc.toNat
    let len := s.regs.encLen.toNat
    let d := s.regs.encDst.toNat
    let cap := s.regs.encCap.toNat
    let total := 2 + (encodeLength len).2.length + len
    let failed (err : BitVec 4) : State :=
      s.ended { s.regs with encOutlen := 0#64, status := s.finishedStatus err 0#3 } s.mem
    (s.mem.size < src + len ∨ s.mem.size < d + cap → exec (.encode fopc fin) s = .next (failed 2#4)) ∧
    (src + len ≤ s.mem.size → d + cap ≤ s.mem.size → cap < total →
      exec (.encode fopc fin) s = .next (failed 3#4)) ∧
    (src + len ≤ s.mem.size → d + cap ≤ s.mem.size → total ≤ cap →
      0 < len → src < d + total → d < src + len → exec (.encode fopc fin) s = .next (failed 4#4))

/-- 60_exceptions.md R214, R216, 42_frame_encoder.md R170: a source cell without a value. UNINIT is
recorded with the first such address and nothing else happens. -/
def Obligations.EncodeRecordsTheFirstEmptyCell : Prop :=
  ∀ (s : State) (fopc : BitVec 4) (fin : Bool) (pre : List Byte), s.faults = [] →
    let src := s.regs.encSrc.toNat
    let len := s.regs.encLen.toNat
    let d := s.regs.encDst.toNat
    let cap := s.regs.encCap.toNat
    let total := 2 + (encodeLength len).2.length + len
    src + len ≤ s.mem.size → d + cap ≤ s.mem.size → total ≤ cap → (d + total ≤ src ∨ src + len ≤ d) →
    pre.length < len → s.mem.holds src pre → s.mem.read (src + pre.length) = none →
    exec (.encode fopc fin) s = .next { s with faults := [.uninit (src + pre.length)] }

/-! ## Round trips -/

/-- 42_frame_encoder.md R175, first part: a frame that ENCODE built decodes. `s` is the state ENCODE runs
in, `t` the state after it, `s'` any later state with the same memory whose DEC_BASE is the frame's
address and whose region holds the frame and is in range. -/
def Obligations.EncodedFrameDecodes : Prop :=
  ∀ (s s' : State) (fopc : BitVec 4) (fin : Bool) (p : List Byte) (t : State),
    let d := s.regs.encDst.toNat
    let total := 2 + (encodeLength p.length).2.length + p.length
    p.length = s.regs.encLen.toNat → s.mem.holds s.regs.encSrc.toNat p →
    exec (.encode fopc fin) s = .next t → (statusFields t.regs.status).err = 0#4 → t.pending = none →
    s.pending ≠ none →
    s'.mem = t.mem → s'.regs.decBase.toNat = d → total ≤ s'.regs.decAvail.toNat →
    d + s'.regs.decAvail.toNat ≤ s'.mem.size →
    ∃ u : State,
      exec .decode s' = .next u ∧
      (statusFields u.regs.status).err = 0#4 ∧ u.pending = none ∧ u.mem = s'.mem ∧
      u.regs.decHdr.extractLsb' 0 16 = packByte0 fin fopc ++ packByte1 (encodeLength p.length).1 ∧
      u.regs.decHdr.extractLsb' 8 4 = fopc ∧
      u.regs.decHdr.getLsbD 15 = fin ∧
      u.regs.decHdr.getLsbD 7 = false ∧
      u.regs.decPlen.toNat = p.length ∧
      u.regs.decPoff.toNat = 2 + (encodeLength p.length).2.length ∧
      u.mem.holds (d + u.regs.decPoff.toNat) p

/-- 42_frame_encoder.md R175, second part: the client form. A header with MASK set, the extension, a key
and a payload stand in memory; XORMASK masks the payload with that key, and DECODE restores it. -/
def Obligations.MaskedClientFrameRoundTrips : Prop :=
  ∀ (s : State) (b : Nat) (opc : BitVec 4) (fin : Bool) (key : Key) (p : List Byte),
    let len7 := (encodeLength p.length).1
    let x := (encodeLength p.length).2
    let off := 2 + x.length + 4
    p.length < 2 ^ 64 → b + off + p.length ≤ s.mem.size →
    s.mem.holds b ([packByte0 fin opc, 1#1 ++ len7] ++ x ++ [key.k0, key.k1, key.k2, key.k3] ++ p) →
    s.regs.xorBase.toNat = b + off → s.regs.xorLen.toNat = p.length → s.regs.xorKey = keyRegister key →
    ∃ t : State,
      exec .xormask s = .next t ∧ (statusFields t.regs.status).err = 0#4 ∧
      ∀ s' : State, s'.mem = t.mem → s'.regs.decBase.toNat = b → off + p.length ≤ s'.regs.decAvail.toNat →
        b + s'.regs.decAvail.toNat ≤ s'.mem.size →
        ∃ u : State,
          exec .decode s' = .next u ∧ (statusFields u.regs.status).err = 0#4 ∧
          u.regs.decPlen.toNat = p.length ∧ u.regs.decPoff.toNat = off ∧ u.regs.decKey = keyRegister key ∧
          u.mem.holds (b + off) p

/-! ## Steps and agents -/

/-- 10_state.md R21, 30_encoding.md R85: when it is ENGINE's turn, the step is `exec` of the instruction
the pending word decodes to, in the state itself but for the schedule's bookkeeping; an illegal word
finishes BAD_COMMAND (30_encoding.md R84) and changes nothing but STATUS and pending. -/
def Obligations.StepRunsThePendingCommand : Prop :=
  ∀ (s : State) (w : Word), s.mover = some .engine → s.pending = some w →
    s.takeTurn = { s with schedule := s.takeTurn.schedule, choices := s.takeTurn.choices } ∧
    (∀ i, decodeCommand w = .ok i → step s = exec i s.takeTurn) ∧
    (∀ e, decodeCommand w = .error e →
      step s = .next (s.takeTurn.ended { s.regs with status := s.finishedStatus 5#4 0#3 } s.mem))

/-- 43_host_transactions.md R190: when it is the host's turn, the step is `exec` of the transaction its next
tuple decodes to, in the same state but for the schedule's bookkeeping (log entry 3) and with the rest of
the program left, also when the transaction records a fault (log entry 15); a tuple that is no transaction
is refused (log entry 6). -/
def Obligations.StepRunsTheNextTransaction : Prop :=
  ∀ (s : State) (t : BusTuple) (rest : List HostOp),
    s.mover = some .host → s.nextTransaction = some (t, rest) →
    s.takeTurn = { s with schedule := s.takeTurn.schedule, choices := s.takeTurn.choices } ∧
    (∀ i, decodeBus t = .ok i → step s = exec i { s.takeTurn with host := rest }) ∧
    (∀ e, decodeBus t = .error e → step s = .refused (.notATransaction t))

/-- 10_state.md R20, R21, 43_host_transactions.md R190, 60_exceptions.md R217: who may move. The engine
exactly when a command is pending and no fault is recorded; the host when its program goes on and no fault
is recorded; where both may, either one can be next (the schedule is the model's own, log entry 3). -/
def Obligations.EitherEnabledAgentMayMove : Prop :=
  ∀ s : State,
    (s.engineEnabled = true ↔ s.pending ≠ none ∧ s.faults = []) ∧
    (s.hostEnabled = true ↔ s.nextTransaction ≠ none ∧ s.faults = []) ∧
    (s.engineEnabled = true → s.hostEnabled = false → s.mover = some .engine) ∧
    (s.engineEnabled = false → s.hostEnabled = true → s.mover = some .host) ∧
    (s.engineEnabled = true → s.hostEnabled = true → ∀ (a : Agent) (later : List Agent),
      State.mover { s with schedule := a :: later } = some a)

/-- 60_exceptions.md R213: a state with a recorded fault takes no further step and is never final, and a
step stops with a fault in no other state. -/
def Obligations.FaultedStateIsQuiescent : Prop :=
  ∀ s : State,
    (s.faults ≠ [] → (∃ k ∈ s.faults, step s = .fault k) ∧ s.final = false ∧ s.mover = none) ∧
    (∀ k, step s = .fault k → k ∈ s.faults)

/-- 10_state.md R21, R30, R31: ENGINE's step always ends in a next state. Either the command finished
(nothing pending, BUSY 0, DONE 1, no fault), or it recorded one UNINIT and left registers, memory and
pending as they were. -/
def Obligations.EngineStepFinishesOrRecordsUninit : Prop :=
  ∀ (s : State) (w : Word), s.mover = some .engine → s.pending = some w →
    ∃ t : State, step s = .next t ∧ t.host = s.host ∧ t.observed = s.observed ∧
      ((t.pending = none ∧ t.faults = [] ∧ t.busy = false ∧ (statusFields t.regs.status).done = true ∧
          (statusFields t.regs.status).op = (statusFields s.regs.status).op) ∨
       (∃ a, t.faults = [.uninit a] ∧ s.mem.read a = none ∧ t.pending = s.pending ∧ t.regs = s.regs ∧
          t.mem = s.mem))

/-- 60_exceptions.md R211: a command that finishes with an error clears its own result registers, writes
no memory cell, ends as `finish` does, and changes nothing else. -/
def Obligations.FailedCommandIsPrecise : Prop :=
  ∀ (s t : State) (w : Word), s.mover = some .engine → s.pending = some w → step s = .next t →
    t.faults = [] → (statusFields t.regs.status).err ≠ 0#4 →
    t.mem = s.mem ∧
    t.regs.status =
      s.finishedStatus (statusFields t.regs.status).err (statusFields t.regs.status).stage ∧
    t.pending = none ∧ t.host = s.host ∧ t.observed = s.observed ∧
    (decodeCommand w = .ok .decode → ∀ n : RegName, n ≠ .status → t.regs.get n =
      if n ∈ [RegName.decHdr, .decPlen, .decPoff, .decKey, .decFlen] then 0#64 else s.regs.get n) ∧
    (∀ o f, decodeCommand w = .ok (.encode o f) → ∀ n : RegName, n ≠ .status → t.regs.get n =
      if n = .encOutlen then 0#64 else s.regs.get n) ∧
    (decodeCommand w = .ok .xormask ∨ (∃ e, decodeCommand w = .error e) → ∀ n : RegName, n ≠ .status →
      t.regs.get n = s.regs.get n)

/-- 70_reset_and_hazards.md R242 (last paragraph), 20_memory.md R61: a command writes no cell outside its
region of effect, and no cell at all when its word is illegal. -/
def Obligations.CommandWritesOnlyItsRegionOfEffect : Prop :=
  ∀ (s t : State) (w : Word), s.mover = some .engine → s.pending = some w → step s = .next t →
    s.mem.sameOutside t.mem (regionOfEffect s.regs w).1 (regionOfEffect s.regs w).2

/-- 10_state.md R26 (column "written by"), R36, R45: who writes which register. ENGINE writes STATUS, and
its command's result registers; the host writes the registers with host access, and CMD and STATUS by
command issue; only a reset changes anything else. -/
def Obligations.RegistersAreWrittenOnlyByTheirWriters : Prop :=
  ∀ (s t : State) (n : RegName), step s = .next t → t.regs.get n ≠ s.regs.get n →
    (∃ w, s.mover = some .engine ∧ s.pending = some w ∧
      (n = .status ∨
       (decodeCommand w = .ok .decode ∧ n ∈ [RegName.decHdr, .decPlen, .decPoff, .decKey, .decFlen]) ∨
       (∃ o f, decodeCommand w = .ok (.encode o f)) ∧ n = .encOutlen)) ∨
    (∃ bus rest i, s.mover = some .host ∧ s.nextTransaction = some (bus, rest) ∧ decodeBus bus = .ok i ∧
      ((∃ v, i = .wr (regNumOf n) v ∧ (regAccess n = .rw ∨ regAccess n = .rwWarl)) ∨
       (∃ v, i = .wrCmd v ∧ (n = .cmd ∨ n = .status)) ∨
       i = .rst))

/-- 70_reset_and_hazards.md R247, 20_memory.md R72: while a command is pending no host step but a reset
changes a register, a memory cell or the pending word. -/
def Obligations.OperandsAreStableWhilePending : Prop :=
  ∀ (s t : State) (bus : BusTuple) (rest : List HostOp),
    s.pending ≠ none → s.busy = true → s.mover = some .host → s.nextTransaction = some (bus, rest) →
    step s = .next t → decodeBus bus ≠ .ok .rst →
    t.regs = s.regs ∧ t.mem = s.mem ∧ t.pending = s.pending

/-- 43_host_transactions.md R197, 60_exceptions.md R227: a final state is exactly one in which neither agent
can step and no fault is recorded, and a step there changes nothing (the idle step is the model's own, log
entry 5). -/
def Obligations.FinalStateIsIdle : Prop :=
  ∀ s : State,
    (s.final = true ↔ s.nextTransaction = none ∧ s.pending = none ∧ s.faults = []) ∧
    (s.final = true ↔ s.mover = none ∧ s.faults = []) ∧
    (s.final = true → step s = .next s)

/-! ## Host programs -/

/-- 30_encoding.md R88, `wait`, and 43_host_transactions.md R190: each poll is one STATUS read; the loop goes
on while bit 0 is 1. That the branch is decided in the step of the read is log entry 17. -/
def Obligations.WaitPollsStatus : Prop :=
  ∀ (s : State) (rest : List HostOp), s.faults = [] → s.host = .wait :: rest → s.mover = some .host →
    ∃ v : Word,
      step s = .next
        { s.takeTurn with
          host := if v.getLsbD 0 = true then .wait :: rest else rest
          observed := s.observed ++ [.register 0x01#6 v] } ∧
      v = s.regs.status &&& implementedBits .status

/-- 30_encoding.md R88, `copy S, D, n`, and 43_host_transactions.md R190: with the block idle and the source
cells written, 2n steps copy n bytes that do not overlap their destination, and go on with the rest of the
program. That the loop takes no step of its own, so that the steps are 2n, is log entry 17. -/
def Obligations.CopyCopiesBytes : Prop :=
  ∀ (p : List Byte) (s : State) (src dst : Nat) (rest : List HostOp),
    s.faults = [] → s.pending = none → s.busy = false → s.host = .copy src dst p.length :: rest →
    src + p.length ≤ s.mem.size → dst + p.length ≤ s.mem.size →
    (src + p.length ≤ dst ∨ dst + p.length ≤ src) → s.mem.holds src p →
    ∃ t : State, Sys2Proof.core.run (2 * p.length) s = .next t ∧
      t.regs = s.regs ∧ t.pending = none ∧ t.faults = [] ∧
      t.nextTransaction = fetchHost t rest ∧
      t.mem.holds dst p ∧ s.mem.sameOutside t.mem dst p.length

/-- 70_reset_and_hazards.md R250, R246: a `wait` ends once ENGINE has stepped. The host polls `k` times
while the command is pending, ENGINE steps, and the next poll leaves the loop, unless the command recorded
UNINIT. The schedule is data (log entry 3), the branch takes no step (log entry 17), and this is the bounded
form (log entry 16); WaitDoesNotHang is the form for every weakly fair schedule. -/
def Obligations.WaitEndsAfterTheEngineStep : Prop :=
  ∀ (k : Nat) (s : State) (rest : List HostOp) (later : List Agent),
    s.faults = [] → s.pending ≠ none → s.busy = true → s.host = .wait :: rest →
    s.schedule = List.replicate k .host ++ .engine :: later →
    (∃ t : State, Sys2Proof.core.run (k + 2) s = .next t ∧ t.host = rest ∧ t.pending = none ∧
      t.faults = [] ∧ t.busy = false ∧ t.schedule = later) ∨
    (∃ a, Sys2Proof.core.run (k + 2) s = .fault (.uninit a) ∧ s.mem.read a = none)

/-- 30_encoding.md R88 and R81: the word `cmd encode` writes is the command word of ENCODE. -/
def Obligations.CmdEncodeWritesTheEncodeWord : Prop :=
  ∀ (o : BitVec 4) (f : Bool),
    encode (.encode o f) = .command (BitVec.ofNat 64 (0x2 + o.toNat * 0x10 + f.toNat * 0x100)) ∧
    ∃ w : Word, hostCmdEncode o f = .txn ⟨.wr, some 0x00, some w.toNat⟩ ∧
      decodeBus ⟨.wr, some 0x00, some w.toNat⟩ = .ok (.wrCmd w) ∧ decodeCommand w = .ok (.encode o f)

/-! ## Invariants -/

/-- 20_memory.md R60: every step keeps the memory's canonical form and its size, from every state whose
memory has that form. -/
def Obligations.StepKeepsTheMemoryForm : Prop :=
  ∀ s t : State, s.mem.wf = true → step s = .next t → t.mem.wf = true ∧ t.mem.size = s.mem.size

/-- The invariant State.Inv (10_state.md R28-R34, R38, R40, 20_memory.md R60, 60_exceptions.md R210): every
step keeps it. -/
def Obligations.StepKeepsTheInvariant : Prop :=
  ∀ s t : State, s.Inv → step s = .next t → t.Inv

/-- The power-on state meets State.Inv for every MEM_SIZE from 1 to 2^64, and so does State.reset. -/
def Obligations.PowerOnMeetsTheInvariant : Prop :=
  (∀ n : Nat, 1 ≤ n → n ≤ 2 ^ 64 → (State.powerOn n).Inv) ∧ State.reset.Inv

/-! ## The register table -/

/-- 10_state.md R26, R27: each register's number, access type and implemented bits as the table writes them;
no other register; which field of the state each name reads; and the unmapped numbers. With
RegReadReturnsTheRegister and RegWriteFollowsTheAccessType this fixes what the host sees at each number. -/
def Obligations.RegisterTableIsAsWritten : Prop :=
  let table : List (RegName × RegNum × Access × Word) :=
    [(.cmd, 0x00#6, .cmd, 0xFFFFFFFFFFFFFFFF#64),
     (.status, 0x01#6, .ro, 0x000000000000F7F3#64),
     (.decBase, 0x08#6, .rw, 0xFFFFFFFFFFFFFFFF#64),
     (.decAvail, 0x09#6, .rw, 0xFFFFFFFFFFFFFFFF#64),
     (.decHdr, 0x0A#6, .ro, 0x000000000007FFFF#64),
     (.decPlen, 0x0B#6, .ro, 0xFFFFFFFFFFFFFFFF#64),
     (.decPoff, 0x0C#6, .ro, 0xFFFFFFFFFFFFFFFF#64),
     (.decKey, 0x0D#6, .ro, 0x00000000FFFFFFFF#64),
     (.decFlen, 0x0E#6, .ro, 0xFFFFFFFFFFFFFFFF#64),
     (.encSrc, 0x10#6, .rw, 0xFFFFFFFFFFFFFFFF#64),
     (.encLen, 0x11#6, .rw, 0xFFFFFFFFFFFFFFFF#64),
     (.encDst, 0x12#6, .rw, 0xFFFFFFFFFFFFFFFF#64),
     (.encCap, 0x13#6, .rw, 0xFFFFFFFFFFFFFFFF#64),
     (.encOutlen, 0x14#6, .ro, 0xFFFFFFFFFFFFFFFF#64),
     (.xorBase, 0x18#6, .rw, 0xFFFFFFFFFFFFFFFF#64),
     (.xorLen, 0x19#6, .rw, 0xFFFFFFFFFFFFFFFF#64),
     (.xorKey, 0x1A#6, .rwWarl, 0x00000000FFFFFFFF#64)]
  (∀ row ∈ table, regNumOf row.1 = row.2.1 ∧ regAccess row.1 = row.2.2.1 ∧ implementedBits row.1 = row.2.2.2) ∧
  (∀ n : RegName, n ∈ table.map fun row => row.1) ∧
  (∀ g : Regs, (table.map fun row => g.get row.1) =
    [g.cmd, g.status, g.decBase, g.decAvail, g.decHdr, g.decPlen, g.decPoff, g.decKey, g.decFlen, g.encSrc,
      g.encLen, g.encDst, g.encCap, g.encOutlen, g.xorBase, g.xorLen, g.xorKey]) ∧
  ∀ r : RegNum, (∀ n : RegName, regNumOf n ≠ r) ↔
    (0x02 ≤ r.toNat ∧ r.toNat ≤ 0x07) ∨ r.toNat = 0x0F ∨ (0x15 ≤ r.toNat ∧ r.toNat ≤ 0x17) ∨ 0x1B ≤ r.toNat

/-! ## Runs of every host program under every schedule -/

/-- 43_host_transactions.md R190, R197, 10_state.md R20, R21: one point of a run, for every program and
whichever agent the schedule names. The host is enabled exactly when its program has a further transaction
and no fault is recorded, ENGINE when a command is pending and no fault is recorded; the named agent moves
if it is enabled, else the other one if that is. The host's step is `exec` of its transaction, ENGINE's is
`exec` of the pending command. No agent can step exactly at a final point and at one with a recorded fault,
and of these the second is the failed run. The model's own: that the named agent moves if it is enabled, else the other
one (log entry 3), that a transaction counts as sent also when it records a fault (log entry 15), and that
the run stays where no agent can step (log entry 18). -/
def Obligations.PlayTakesTheEnabledAgentsStep : Prop :=
  ∀ (P : HostProgram) (a : Agent) (c : Play),
    (c.enabled P .host = true ↔ (∃ t, P c.sent c.state.observed = some t) ∧ c.state.faults = []) ∧
    (c.enabled P .engine = true ↔ c.state.pending ≠ none ∧ c.state.faults = []) ∧
    (c.enabled P a = true → c.mover P a = some a) ∧
    (∀ b, b ≠ a → c.enabled P a = false → c.enabled P b = true → c.mover P a = some b) ∧
    (∀ t i, c.mover P a = some .host → P c.sent c.state.observed = some t → decodeBus t = .ok i →
      (∀ s, exec i c.state = .next s → c.next P a = .next ⟨s, c.sent + 1⟩) ∧
      (∀ r, exec i c.state = .refused r → c.next P a = .refused r)) ∧
    (∀ w i s, c.mover P a = some .engine → c.state.pending = some w → decodeCommand w = .ok i →
      exec i c.state = .next s → c.next P a = .next ⟨s, c.sent⟩) ∧
    (c.mover P a = none → c.next P a = .next c) ∧
    (c.mover P a = none ↔ c.final P = true ∨ c.state.faults ≠ []) ∧
    (c.failed P = true ↔ c.state.faults ≠ [])

/-- 10_state.md R20, R23, 43_host_transactions.md R190: the core machine has every finite run of every
well-formed host program under every schedule. The list of the transactions sent and a list of the agents
that moved make `step` run through the same states, up to the first recorded fault, where the core machine
stops (log entry 2). The list and the schedule are the model's own data (log entries 3 and 4), and so are the
steps after the run's end, where nothing changes (log entries 5 and 18). -/
def Obligations.EveryPlayIsARunOfTheMachine : Prop :=
  ∀ (P : HostProgram) (σ : Schedule) (c : Play) (n : Nat),
    P.wellFormed c.state.mem.size → (∀ m, m < n → (play P σ c m).state.faults = []) →
    ∃ (p : List HostOp) (later : List Agent) (t : State),
      Sys2Proof.core.run n { c.state with host := p, schedule := later } = .next t ∧
      t.regs = (play P σ c n).state.regs ∧ t.mem = (play P σ c n).state.mem ∧
      t.pending = (play P σ c n).state.pending ∧ t.faults = (play P σ c n).state.faults ∧
      t.observed = (play P σ c n).state.observed

/-- 70_reset_and_hazards.md R250, R247: under every weakly fair schedule, whatever the host's program, a
pending command keeps its word until ENGINE carries it out, a reset abandons it, or a fault is recorded, and
one of these happens. What weakly fair means is DEDUCED, log entry 16. -/
def Obligations.PendingCommandEndsUnderFairness : Prop :=
  ∀ (P : HostProgram) (σ : Schedule) (c : Play),
    weaklyFair P σ c → c.state.pending ≠ none → c.state.busy = true → c.state.faults = [] →
    ∃ n, (∀ m, m ≤ n → (play P σ c m).state.pending = c.state.pending ∧ (play P σ c m).state.faults = []) ∧
      ((play P σ c (n + 1)).state.pending = none ∨ (play P σ c (n + 1)).state.faults ≠ [])

/-- 70_reset_and_hazards.md R250, 30_encoding.md R88, 43_host_transactions.md R197: `wait` ends under every
weakly fair schedule. Unless a pending command records UNINIT of a cell without a value, the run becomes
final with BUSY 0 and is no hang; a `wait` run from its start has then read STATUS at least once, with bit 0 of
the last value 0 and of every earlier one 1. Weak fairness and hangs are those of log entry 16; that the branch
takes no step of its own is log entry 17. -/
def Obligations.WaitDoesNotHang : Prop :=
  ∀ (σ : Schedule) (c : Play),
    weaklyFair .wait σ c → c.state.pending ≠ none → c.state.busy = true → c.state.faults = [] →
    ((∃ n, (play .wait σ c n).final .wait = true ∧ (play .wait σ c n).state.busy = false ∧
        (c.sent = 0 → ∃ (vs : List Word) (v : Word),
          (play .wait σ c n).state.observed = c.state.observed ++ (vs ++ [v]).map (.register 0x01#6) ∧
          (∀ u ∈ vs, u.getLsbD 0 = true) ∧ v.getLsbD 0 = false)) ∧
      ¬ hangs .wait σ c) ∨
    (∃ n a, (play .wait σ c n).state.faults = [.uninit a] ∧ c.state.mem.read a = none)

/-- 43_host_transactions.md R197, 70_reset_and_hazards.md R250: a well-formed program with no more than `N`
transactions ends, under any schedule: its run becomes final or records a fault within 2N + 1 steps (counted as log entry 18 says). -/
def Obligations.FiniteProgramEnds : Prop :=
  ∀ (P : HostProgram) (N : Nat) (σ : Schedule) (c : Play),
    P.wellFormed c.state.mem.size → (∀ k obs, N ≤ k → P k obs = none) →
    ∃ n, n ≤ 2 * N + 1 ∧ ((play P σ c n).final P = true ∨ (play P σ c n).state.faults ≠ [])
end

