-- ==== Sys2Proof/Laws/State.lean ====
section
/-! SUPPORT. The field of every state update: one lemma per field, true by rfl, so that no later proof
unfolds a record update. -/

namespace Sys2Proof.Machine

variable (s : State)

/-! ### recordFault -/

@[simp] theorem State.recordFault_regs (k : Fault) : (s.recordFault k).regs = s.regs := rfl
@[simp] theorem State.recordFault_mem (k : Fault) : (s.recordFault k).mem = s.mem := rfl
@[simp] theorem State.recordFault_pending (k : Fault) : (s.recordFault k).pending = s.pending := rfl
@[simp] theorem State.recordFault_host (k : Fault) : (s.recordFault k).host = s.host := rfl
@[simp] theorem State.recordFault_observed (k : Fault) : (s.recordFault k).observed = s.observed := rfl
@[simp] theorem State.recordFault_schedule (k : Fault) : (s.recordFault k).schedule = s.schedule := rfl
@[simp] theorem State.recordFault_choices (k : Fault) : (s.recordFault k).choices = s.choices := rfl

/-! ### finish -/

@[simp] theorem State.finish_mem (c : ErrorCode) (g : Stage) : (s.finish c g).mem = s.mem := rfl
@[simp] theorem State.finish_pending (c : ErrorCode) (g : Stage) : (s.finish c g).pending = none := rfl
@[simp] theorem State.finish_faults (c : ErrorCode) (g : Stage) : (s.finish c g).faults = s.faults := rfl
@[simp] theorem State.finish_host (c : ErrorCode) (g : Stage) : (s.finish c g).host = s.host := rfl
@[simp] theorem State.finish_observed (c : ErrorCode) (g : Stage) : (s.finish c g).observed = s.observed := rfl
@[simp] theorem State.finish_schedule (c : ErrorCode) (g : Stage) : (s.finish c g).schedule = s.schedule := rfl
@[simp] theorem State.finish_choices (c : ErrorCode) (g : Stage) : (s.finish c g).choices = s.choices := rfl

/-! ### badCommand -/

@[simp] theorem State.badCommand_mem : s.badCommand.mem = s.mem := rfl
@[simp] theorem State.badCommand_pending : s.badCommand.pending = none := rfl
@[simp] theorem State.badCommand_faults : s.badCommand.faults = s.faults := rfl
@[simp] theorem State.badCommand_host : s.badCommand.host = s.host := rfl
@[simp] theorem State.badCommand_observed : s.badCommand.observed = s.observed := rfl
@[simp] theorem State.badCommand_schedule : s.badCommand.schedule = s.schedule := rfl
@[simp] theorem State.badCommand_choices : s.badCommand.choices = s.choices := rfl

/-! ### issue -/

@[simp] theorem State.issue_mem (w : Word) : (s.issue w).mem = s.mem := rfl
@[simp] theorem State.issue_pending (w : Word) : (s.issue w).pending = some w := rfl
@[simp] theorem State.issue_faults (w : Word) : (s.issue w).faults = s.faults := rfl
@[simp] theorem State.issue_host (w : Word) : (s.issue w).host = s.host := rfl
@[simp] theorem State.issue_observed (w : Word) : (s.issue w).observed = s.observed := rfl
@[simp] theorem State.issue_schedule (w : Word) : (s.issue w).schedule = s.schedule := rfl
@[simp] theorem State.issue_choices (w : Word) : (s.issue w).choices = s.choices := rfl

/-! ### observe -/

@[simp] theorem State.observe_regs (o : Observed) : (s.observe o).regs = s.regs := rfl
@[simp] theorem State.observe_mem (o : Observed) : (s.observe o).mem = s.mem := rfl
@[simp] theorem State.observe_pending (o : Observed) : (s.observe o).pending = s.pending := rfl
@[simp] theorem State.observe_faults (o : Observed) : (s.observe o).faults = s.faults := rfl
@[simp] theorem State.observe_host (o : Observed) : (s.observe o).host = s.host := rfl
@[simp] theorem State.observe_observed (o : Observed) : (s.observe o).observed = s.observed ++ [o] := rfl
@[simp] theorem State.observe_schedule (o : Observed) : (s.observe o).schedule = s.schedule := rfl
@[simp] theorem State.observe_choices (o : Observed) : (s.observe o).choices = s.choices := rfl

/-! ### resetAssert -/

@[simp] theorem State.resetAssert_regs : s.resetAssert.regs = Regs.zero := rfl
@[simp] theorem State.resetAssert_pending : s.resetAssert.pending = none := rfl
@[simp] theorem State.resetAssert_faults : s.resetAssert.faults = s.faults := rfl
@[simp] theorem State.resetAssert_host : s.resetAssert.host = s.host := rfl
@[simp] theorem State.resetAssert_observed : s.resetAssert.observed = s.observed := rfl
@[simp] theorem State.resetAssert_schedule : s.resetAssert.schedule = s.schedule := rfl
@[simp] theorem State.resetAssert_choices : s.resetAssert.choices = s.choices := rfl

/-! ### writeDecResults -/

@[simp] theorem State.writeDecResults_mem (hdr plen poff key flen : Word) : (s.writeDecResults hdr plen poff key flen).mem = s.mem := rfl
@[simp] theorem State.writeDecResults_pending (hdr plen poff key flen : Word) : (s.writeDecResults hdr plen poff key flen).pending = s.pending := rfl
@[simp] theorem State.writeDecResults_faults (hdr plen poff key flen : Word) : (s.writeDecResults hdr plen poff key flen).faults = s.faults := rfl
@[simp] theorem State.writeDecResults_host (hdr plen poff key flen : Word) : (s.writeDecResults hdr plen poff key flen).host = s.host := rfl
@[simp] theorem State.writeDecResults_observed (hdr plen poff key flen : Word) : (s.writeDecResults hdr plen poff key flen).observed = s.observed := rfl
@[simp] theorem State.writeDecResults_schedule (hdr plen poff key flen : Word) : (s.writeDecResults hdr plen poff key flen).schedule = s.schedule := rfl
@[simp] theorem State.writeDecResults_choices (hdr plen poff key flen : Word) : (s.writeDecResults hdr plen poff key flen).choices = s.choices := rfl

/-! ### decFail -/

@[simp] theorem State.decFail_mem (c : ErrorCode) (g : Stage) : (s.decFail c g).mem = s.mem := rfl
@[simp] theorem State.decFail_pending (c : ErrorCode) (g : Stage) : (s.decFail c g).pending = none := rfl
@[simp] theorem State.decFail_faults (c : ErrorCode) (g : Stage) : (s.decFail c g).faults = s.faults := rfl
@[simp] theorem State.decFail_host (c : ErrorCode) (g : Stage) : (s.decFail c g).host = s.host := rfl
@[simp] theorem State.decFail_observed (c : ErrorCode) (g : Stage) : (s.decFail c g).observed = s.observed := rfl
@[simp] theorem State.decFail_schedule (c : ErrorCode) (g : Stage) : (s.decFail c g).schedule = s.schedule := rfl
@[simp] theorem State.decFail_choices (c : ErrorCode) (g : Stage) : (s.decFail c g).choices = s.choices := rfl

/-! ### decDone -/

@[simp] theorem State.decDone_mem (h0 h1 : Byte) (len : Nat) (key : Word) : (s.decDone h0 h1 len key).mem = s.mem := rfl
@[simp] theorem State.decDone_pending (h0 h1 : Byte) (len : Nat) (key : Word) : (s.decDone h0 h1 len key).pending = none := rfl
@[simp] theorem State.decDone_faults (h0 h1 : Byte) (len : Nat) (key : Word) : (s.decDone h0 h1 len key).faults = s.faults := rfl
@[simp] theorem State.decDone_host (h0 h1 : Byte) (len : Nat) (key : Word) : (s.decDone h0 h1 len key).host = s.host := rfl
@[simp] theorem State.decDone_observed (h0 h1 : Byte) (len : Nat) (key : Word) : (s.decDone h0 h1 len key).observed = s.observed := rfl
@[simp] theorem State.decDone_schedule (h0 h1 : Byte) (len : Nat) (key : Word) : (s.decDone h0 h1 len key).schedule = s.schedule := rfl
@[simp] theorem State.decDone_choices (h0 h1 : Byte) (len : Nat) (key : Word) : (s.decDone h0 h1 len key).choices = s.choices := rfl

/-! ### encFail -/

@[simp] theorem State.encFail_mem (c : ErrorCode) : (s.encFail c).mem = s.mem := rfl
@[simp] theorem State.encFail_pending (c : ErrorCode) : (s.encFail c).pending = none := rfl
@[simp] theorem State.encFail_faults (c : ErrorCode) : (s.encFail c).faults = s.faults := rfl
@[simp] theorem State.encFail_host (c : ErrorCode) : (s.encFail c).host = s.host := rfl
@[simp] theorem State.encFail_observed (c : ErrorCode) : (s.encFail c).observed = s.observed := rfl
@[simp] theorem State.encFail_schedule (c : ErrorCode) : (s.encFail c).schedule = s.schedule := rfl
@[simp] theorem State.encFail_choices (c : ErrorCode) : (s.encFail c).choices = s.choices := rfl

/-! ### encDone -/

@[simp] theorem State.encDone_mem (total : Nat) : (s.encDone total).mem = s.mem := rfl
@[simp] theorem State.encDone_pending (total : Nat) : (s.encDone total).pending = none := rfl
@[simp] theorem State.encDone_faults (total : Nat) : (s.encDone total).faults = s.faults := rfl
@[simp] theorem State.encDone_host (total : Nat) : (s.encDone total).host = s.host := rfl
@[simp] theorem State.encDone_observed (total : Nat) : (s.encDone total).observed = s.observed := rfl
@[simp] theorem State.encDone_schedule (total : Nat) : (s.encDone total).schedule = s.schedule := rfl
@[simp] theorem State.encDone_choices (total : Nat) : (s.encDone total).choices = s.choices := rfl

/-! ### The registers after finish -/

@[simp] theorem State.finish_regs_cmd (c : ErrorCode) (g : Stage) : (s.finish c g).regs.cmd = s.regs.cmd := rfl
@[simp] theorem State.finish_regs_status (c : ErrorCode) (g : Stage) : (s.finish c g).regs.status = statusWord ⟨false, true, errorBits c, stageBits g, (statusFields s.regs.status).op⟩ := rfl
@[simp] theorem State.finish_regs_decBase (c : ErrorCode) (g : Stage) : (s.finish c g).regs.decBase = s.regs.decBase := rfl
@[simp] theorem State.finish_regs_decAvail (c : ErrorCode) (g : Stage) : (s.finish c g).regs.decAvail = s.regs.decAvail := rfl
@[simp] theorem State.finish_regs_decHdr (c : ErrorCode) (g : Stage) : (s.finish c g).regs.decHdr = s.regs.decHdr := rfl
@[simp] theorem State.finish_regs_decPlen (c : ErrorCode) (g : Stage) : (s.finish c g).regs.decPlen = s.regs.decPlen := rfl
@[simp] theorem State.finish_regs_decPoff (c : ErrorCode) (g : Stage) : (s.finish c g).regs.decPoff = s.regs.decPoff := rfl
@[simp] theorem State.finish_regs_decKey (c : ErrorCode) (g : Stage) : (s.finish c g).regs.decKey = s.regs.decKey := rfl
@[simp] theorem State.finish_regs_decFlen (c : ErrorCode) (g : Stage) : (s.finish c g).regs.decFlen = s.regs.decFlen := rfl
@[simp] theorem State.finish_regs_encSrc (c : ErrorCode) (g : Stage) : (s.finish c g).regs.encSrc = s.regs.encSrc := rfl
@[simp] theorem State.finish_regs_encLen (c : ErrorCode) (g : Stage) : (s.finish c g).regs.encLen = s.regs.encLen := rfl
@[simp] theorem State.finish_regs_encDst (c : ErrorCode) (g : Stage) : (s.finish c g).regs.encDst = s.regs.encDst := rfl
@[simp] theorem State.finish_regs_encCap (c : ErrorCode) (g : Stage) : (s.finish c g).regs.encCap = s.regs.encCap := rfl
@[simp] theorem State.finish_regs_encOutlen (c : ErrorCode) (g : Stage) : (s.finish c g).regs.encOutlen = s.regs.encOutlen := rfl
@[simp] theorem State.finish_regs_xorBase (c : ErrorCode) (g : Stage) : (s.finish c g).regs.xorBase = s.regs.xorBase := rfl
@[simp] theorem State.finish_regs_xorLen (c : ErrorCode) (g : Stage) : (s.finish c g).regs.xorLen = s.regs.xorLen := rfl
@[simp] theorem State.finish_regs_xorKey (c : ErrorCode) (g : Stage) : (s.finish c g).regs.xorKey = s.regs.xorKey := rfl

/-! ### The registers after issue -/

@[simp] theorem State.issue_regs_cmd (w : Word) : (s.issue w).regs.cmd = w := rfl
@[simp] theorem State.issue_regs_status (w : Word) : (s.issue w).regs.status = statusWord ⟨true, false, 0#4, 0#3, w.extractLsb' 0 4⟩ := rfl
@[simp] theorem State.issue_regs_decBase (w : Word) : (s.issue w).regs.decBase = s.regs.decBase := rfl
@[simp] theorem State.issue_regs_decAvail (w : Word) : (s.issue w).regs.decAvail = s.regs.decAvail := rfl
@[simp] theorem State.issue_regs_decHdr (w : Word) : (s.issue w).regs.decHdr = s.regs.decHdr := rfl
@[simp] theorem State.issue_regs_decPlen (w : Word) : (s.issue w).regs.decPlen = s.regs.decPlen := rfl
@[simp] theorem State.issue_regs_decPoff (w : Word) : (s.issue w).regs.decPoff = s.regs.decPoff := rfl
@[simp] theorem State.issue_regs_decKey (w : Word) : (s.issue w).regs.decKey = s.regs.decKey := rfl
@[simp] theorem State.issue_regs_decFlen (w : Word) : (s.issue w).regs.decFlen = s.regs.decFlen := rfl
@[simp] theorem State.issue_regs_encSrc (w : Word) : (s.issue w).regs.encSrc = s.regs.encSrc := rfl
@[simp] theorem State.issue_regs_encLen (w : Word) : (s.issue w).regs.encLen = s.regs.encLen := rfl
@[simp] theorem State.issue_regs_encDst (w : Word) : (s.issue w).regs.encDst = s.regs.encDst := rfl
@[simp] theorem State.issue_regs_encCap (w : Word) : (s.issue w).regs.encCap = s.regs.encCap := rfl
@[simp] theorem State.issue_regs_encOutlen (w : Word) : (s.issue w).regs.encOutlen = s.regs.encOutlen := rfl
@[simp] theorem State.issue_regs_xorBase (w : Word) : (s.issue w).regs.xorBase = s.regs.xorBase := rfl
@[simp] theorem State.issue_regs_xorLen (w : Word) : (s.issue w).regs.xorLen = s.regs.xorLen := rfl
@[simp] theorem State.issue_regs_xorKey (w : Word) : (s.issue w).regs.xorKey = s.regs.xorKey := rfl

/-! ### The registers after writeDecResults -/

@[simp] theorem State.writeDecResults_regs_cmd (hdr plen poff key flen : Word) : (s.writeDecResults hdr plen poff key flen).regs.cmd = s.regs.cmd := rfl
@[simp] theorem State.writeDecResults_regs_status (hdr plen poff key flen : Word) : (s.writeDecResults hdr plen poff key flen).regs.status = s.regs.status := rfl
@[simp] theorem State.writeDecResults_regs_decBase (hdr plen poff key flen : Word) : (s.writeDecResults hdr plen poff key flen).regs.decBase = s.regs.decBase := rfl
@[simp] theorem State.writeDecResults_regs_decAvail (hdr plen poff key flen : Word) : (s.writeDecResults hdr plen poff key flen).regs.decAvail = s.regs.decAvail := rfl
@[simp] theorem State.writeDecResults_regs_decHdr (hdr plen poff key flen : Word) : (s.writeDecResults hdr plen poff key flen).regs.decHdr = hdr := rfl
@[simp] theorem State.writeDecResults_regs_decPlen (hdr plen poff key flen : Word) : (s.writeDecResults hdr plen poff key flen).regs.decPlen = plen := rfl
@[simp] theorem State.writeDecResults_regs_decPoff (hdr plen poff key flen : Word) : (s.writeDecResults hdr plen poff key flen).regs.decPoff = poff := rfl
@[simp] theorem State.writeDecResults_regs_decKey (hdr plen poff key flen : Word) : (s.writeDecResults hdr plen poff key flen).regs.decKey = key := rfl
@[simp] theorem State.writeDecResults_regs_decFlen (hdr plen poff key flen : Word) : (s.writeDecResults hdr plen poff key flen).regs.decFlen = flen := rfl
@[simp] theorem State.writeDecResults_regs_encSrc (hdr plen poff key flen : Word) : (s.writeDecResults hdr plen poff key flen).regs.encSrc = s.regs.encSrc := rfl
@[simp] theorem State.writeDecResults_regs_encLen (hdr plen poff key flen : Word) : (s.writeDecResults hdr plen poff key flen).regs.encLen = s.regs.encLen := rfl
@[simp] theorem State.writeDecResults_regs_encDst (hdr plen poff key flen : Word) : (s.writeDecResults hdr plen poff key flen).regs.encDst = s.regs.encDst := rfl
@[simp] theorem State.writeDecResults_regs_encCap (hdr plen poff key flen : Word) : (s.writeDecResults hdr plen poff key flen).regs.encCap = s.regs.encCap := rfl
@[simp] theorem State.writeDecResults_regs_encOutlen (hdr plen poff key flen : Word) : (s.writeDecResults hdr plen poff key flen).regs.encOutlen = s.regs.encOutlen := rfl
@[simp] theorem State.writeDecResults_regs_xorBase (hdr plen poff key flen : Word) : (s.writeDecResults hdr plen poff key flen).regs.xorBase = s.regs.xorBase := rfl
@[simp] theorem State.writeDecResults_regs_xorLen (hdr plen poff key flen : Word) : (s.writeDecResults hdr plen poff key flen).regs.xorLen = s.regs.xorLen := rfl
@[simp] theorem State.writeDecResults_regs_xorKey (hdr plen poff key flen : Word) : (s.writeDecResults hdr plen poff key flen).regs.xorKey = s.regs.xorKey := rfl

/-! ### takeTurn -/

theorem State.takeTurn_eq :
    s.takeTurn = { s with schedule := s.takeTurn.schedule, choices := s.takeTurn.choices } := by
  unfold State.takeTurn
  split
  · split <;> rfl
  · rfl

@[simp] theorem State.takeTurn_regs : s.takeTurn.regs = s.regs := by rw [State.takeTurn_eq]
@[simp] theorem State.takeTurn_mem : s.takeTurn.mem = s.mem := by rw [State.takeTurn_eq]
@[simp] theorem State.takeTurn_pending : s.takeTurn.pending = s.pending := by rw [State.takeTurn_eq]
@[simp] theorem State.takeTurn_faults : s.takeTurn.faults = s.faults := by rw [State.takeTurn_eq]
@[simp] theorem State.takeTurn_host : s.takeTurn.host = s.host := by rw [State.takeTurn_eq]
@[simp] theorem State.takeTurn_observed : s.takeTurn.observed = s.observed := by rw [State.takeTurn_eq]

theorem State.busy_of_status (s t : State) (h : t.regs.status = s.regs.status) : t.busy = s.busy := by
  simp only [State.busy, h]

end Sys2Proof.Machine
end

