-- ==== Sys2Proof/Laws/Flags.lean ====
section
/-! SUPPORT. The fields of a STATUS word, the unimplemented bits, and the register file's accessors. -/

namespace Sys2Proof.Machine

/-! ### STATUS -/

@[simp] theorem statusFields_statusWord (f : StatusFields) : statusFields (statusWord f) = f := by
  obtain ⟨busy, done, err, stage, op⟩ := f
  simp only [statusFields, statusWord, StatusFields.mk.injEq]
  refine ⟨?_, ?_, ?_, ?_, ?_⟩
  · simp only [BitVec.getLsbD_append]; simp
  · simp only [BitVec.getLsbD_append]; simp
  all_goals
    apply BitVec.eq_of_getLsbD_eq
    intro i hi
    interval_cases i <;> simp only [BitVec.getLsbD_extractLsb', BitVec.getLsbD_append] <;> simp

@[simp] theorem State.finish_busy (s : State) (c : ErrorCode) (g : Stage) : (s.finish c g).busy = false := by
  simp [State.busy]

@[simp] theorem State.issue_busy (s : State) (w : Word) : (s.issue w).busy = true := by
  simp [State.busy]

@[simp] theorem State.resetAssert_busy (s : State) : s.resetAssert.busy = false := by
  simp [State.busy, statusFields, Regs.zero]

/-! ### The register file -/

@[simp] theorem regNameOf_regNumOf (n : RegName) : regNameOf (regNumOf n) = some n := by
  cases n <;> rfl

theorem regNumOf_of_regNameOf {r : RegNum} {n : RegName} (h : regNameOf r = some n) : regNumOf n = r := by
  revert h; revert n; revert r; decide

theorem Regs.get_set (g : Regs) (n m : RegName) (v : Word) :
    (g.set n v).get m = if m = n then v else g.get m := by
  cases n <;> cases m <;> rfl

theorem Regs.ext_get {g h : Regs} (hgh : ∀ n, g.get n = h.get n) : g = h := by
  cases g; cases h
  simp only [Regs.mk.injEq]
  exact ⟨hgh .cmd, hgh .status, hgh .decBase, hgh .decAvail, hgh .decHdr, hgh .decPlen, hgh .decPoff,
    hgh .decKey, hgh .decFlen, hgh .encSrc, hgh .encLen, hgh .encDst, hgh .encCap, hgh .encOutlen,
    hgh .xorBase, hgh .xorLen, hgh .xorKey⟩

@[simp] theorem Regs.get_zero (n : RegName) : Regs.zero.get n = 0#64 := by cases n <;> rfl

end Sys2Proof.Machine
end

