-- ==== Sys2Proof/Laws/Memory.lean ====
section
/-! SUPPORT. The laws of byte memory: what a read returns after a write, what a multi-byte access does,
and that every operation keeps the canonical form. -/

namespace Sys2Proof.Machine

/-! ### Single cells -/

theorem lookupCell_insertCell (l : List Host.Cell) (a x : Nat) (b : Byte) :
    lookupCell (insertCell l a b) x = if x = a then some b else lookupCell l x := by
  induction l with
  | nil =>
    by_cases h : x = a
    · simp [insertCell, lookupCell, h]
    · simp [insertCell, lookupCell, h, Ne.symm h]
  | cons c rest ih =>
    obtain ⟨k, v⟩ := c
    simp only [insertCell]
    split
    · by_cases h : x = a
      · simp [lookupCell, h]
      · simp [lookupCell, h, Ne.symm h]
    · split
      · rename_i h1 h2
        subst h2
        by_cases h : x = a
        · simp [lookupCell, h]
        · simp [lookupCell, h, Ne.symm h]
      · by_cases h : k = x
        · subst h
          have : k ≠ a := by omega
          simp [lookupCell, this]
        · simp [lookupCell, h, ih]

theorem lookupCell_dropCells (l : List Host.Cell) (lo hi x : Nat) :
    lookupCell (dropCells lo hi l) x = if lo ≤ x ∧ x < hi then none else lookupCell l x := by
  induction l with
  | nil => simp [dropCells, lookupCell, unlisted]
  | cons c rest ih =>
    obtain ⟨k, v⟩ := c
    simp only [dropCells]
    split
    · rename_i hk
      rw [ih]
      split
      · rfl
      · have : k ≠ x := by rintro rfl; contradiction
        simp [lookupCell, this]
    · by_cases h : k = x
      · subst h; simp [lookupCell, *]
      · simp [lookupCell, h, ih]

theorem Memory.read_write (m : Memory) (a x : Nat) (b : Byte) :
    (m.write a b).read x = if x = a then some b else m.read x :=
  lookupCell_insertCell m.cells a x b

@[simp] theorem Memory.read_write_same (m : Memory) (a : Nat) (b : Byte) :
    (m.write a b).read a = some b := by simp [Memory.read_write]

theorem Memory.read_write_other (m : Memory) {a x : Nat} (b : Byte) (h : x ≠ a) :
    (m.write a b).read x = m.read x := by simp [Memory.read_write, h]

theorem Memory.read_forget (m : Memory) (b n x : Nat) :
    (m.forget b n).read x = if b ≤ x ∧ x < min (b + n) m.size then none else m.read x :=
  lookupCell_dropCells m.cells b _ x

@[simp] theorem Memory.write_size (m : Memory) (a : Nat) (b : Byte) : (m.write a b).size = m.size := rfl

@[simp] theorem Memory.forget_size (m : Memory) (b n : Nat) : (m.forget b n).size = m.size := rfl

@[simp] theorem Memory.writeBytes_size (m : Memory) (a : Nat) (bs : List Byte) :
    (m.writeBytes a bs).size = m.size := by
  induction bs generalizing m a with
  | nil => rfl
  | cons b bs ih => simp [Memory.writeBytes, ih]

/-! ### Multi-byte accesses -/

theorem Memory.readBytes_ok (m : Memory) (a n : Nat) (bs : List Byte) :
    m.readBytes a n = .ok bs ↔ bs.length = n ∧ m.holds a bs := by
  induction n generalizing a bs with
  | zero =>
    simp only [Memory.readBytes, Except.ok.injEq]
    constructor
    · rintro rfl; exact ⟨rfl, fun i h => absurd h (Nat.not_lt_zero i)⟩
    · rintro ⟨h, -⟩; exact (List.length_eq_zero_iff.1 h).symm
  | succ n ih =>
    simp only [Memory.readBytes]
    cases bs with
    | nil =>
      simp only [List.length_nil]
      constructor
      · intro h
        split at h
        · cases h
        · split at h <;> cases h
      · rintro ⟨h, -⟩; omega
    | cons b bs =>
      simp only [Memory.holds, List.length_cons]
      constructor
      · intro h
        split at h
        · cases h
        · rename_i b' hb
          split at h
          · rename_i bs' hbs
            cases h
            obtain ⟨hl, hh⟩ := (ih (a + 1) bs).1 hbs
            refine ⟨by omega, fun i hi => ?_⟩
            cases i with
            | zero => simpa using hb
            | succ i =>
              have := hh i (by omega)
              simpa [Nat.add_assoc, Nat.add_comm 1 i] using this
          · cases h
      · rintro ⟨hl, hh⟩
        have h0 : m.read a = some b := by simpa using hh 0 (by omega)
        have ht : m.readBytes (a + 1) n = .ok bs := (ih (a + 1) bs).2
          ⟨by omega, fun i hi => by
            have := hh (i + 1) (by omega)
            simpa [Nat.add_assoc, Nat.add_comm 1 i] using this⟩
        simp [h0, ht]

theorem Memory.readBytes_error (m : Memory) (a n x : Nat) :
    m.readBytes a n = .error x ↔
      a ≤ x ∧ x < a + n ∧ m.read x = none ∧ ∀ y, a ≤ y → y < x → m.read y ≠ none := by
  induction n generalizing a with
  | zero =>
    simp only [Memory.readBytes]
    constructor
    · intro h; cases h
    · rintro ⟨h1, h2, -⟩; omega
  | succ n ih =>
    simp only [Memory.readBytes]
    cases hb : m.read a with
    | none =>
      simp only [Except.error.injEq]
      constructor
      · rintro rfl
        exact ⟨Nat.le_refl _, by omega, hb, fun y h1 h2 => by omega⟩
      · rintro ⟨h1, -, -, h4⟩
        by_contra hne
        exact h4 a (Nat.le_refl _) (by omega) hb
    | some b =>
      have key : (∀ e, m.readBytes (a + 1) n = .error e ↔ (match m.readBytes (a + 1) n with
          | .ok bs => (Except.ok (b :: bs) : Except Nat (List Byte))
          | .error a' => .error a') = .error e) := by
        intro e
        cases m.readBytes (a + 1) n <;> simp
      refine (key x).symm.trans ?_
      rw [ih]
      constructor
      · rintro ⟨h1, h2, h3, h4⟩
        refine ⟨by omega, by omega, h3, fun y hy1 hy2 => ?_⟩
        by_cases hya : y = a
        · subst hya; simp [hb]
        · exact h4 y (by omega) hy2
      · rintro ⟨h1, h2, h3, h4⟩
        have hne : x ≠ a := by rintro rfl; simp [hb] at h3
        exact ⟨by omega, by omega, h3, fun y hy1 hy2 => h4 y (by omega) hy2⟩

theorem Memory.read_writeBytes (m : Memory) (a : Nat) (bs : List Byte) (x : Nat) :
    (m.writeBytes a bs).read x = if a ≤ x ∧ x < a + bs.length then bs[x - a]? else m.read x := by
  induction bs generalizing m a with
  | nil => simp only [Memory.writeBytes, List.length_nil]; rw [if_neg (by omega)]
  | cons b bs ih =>
    simp only [Memory.writeBytes, ih, List.length_cons]
    by_cases hx : x = a
    · subst hx
      rw [if_neg (by omega), if_pos (by omega)]
      simp
    · rw [Memory.read_write_other m b hx]
      by_cases hin : a ≤ x ∧ x < a + (bs.length + 1)
      · rw [if_pos (by omega), if_pos hin]
        have : x - a = (x - (a + 1)) + 1 := by omega
        rw [this, List.getElem?_cons_succ]
      · rw [if_neg (by omega), if_neg hin]

theorem Memory.writeBytes_holds (m : Memory) (a : Nat) (bs : List Byte) : (m.writeBytes a bs).holds a bs := by
  intro i hi
  rw [Memory.read_writeBytes, if_pos (by omega)]
  simp [hi]

theorem Memory.writeBytes_sameOutside (m : Memory) (a : Nat) (bs : List Byte) :
    m.sameOutside (m.writeBytes a bs) a bs.length := by
  intro x hx
  rw [Memory.read_writeBytes, if_neg (by omega)]

theorem Memory.holds_append (m : Memory) (a : Nat) (xs ys : List Byte) :
    m.holds a (xs ++ ys) ↔ m.holds a xs ∧ m.holds (a + xs.length) ys := by
  constructor
  · intro h
    refine ⟨fun i hi => ?_, fun i hi => ?_⟩
    · have := h i (by rw [List.length_append]; omega)
      rwa [List.getElem_append_left hi] at this
    · have := h (xs.length + i) (by rw [List.length_append]; omega)
      rw [List.getElem_append_right (by omega)] at this
      simpa [Nat.add_assoc] using this
  · rintro ⟨h1, h2⟩ i hi
    by_cases hlt : i < xs.length
    · rw [List.getElem_append_left hlt]; exact h1 i hlt
    · rw [List.length_append] at hi
      rw [List.getElem_append_right (by omega)]
      have := h2 (i - xs.length) (by omega)
      rwa [show a + xs.length + (i - xs.length) = a + i by omega] at this

/-! ### The canonical form -/

theorem risingCells_mono {size lo lo' : Nat} {l : List Host.Cell} (h : risingCells size lo l = true)
    (hlo : lo' ≤ lo) : risingCells size lo' l = true := by
  cases l with
  | nil => rfl
  | cons c rest =>
    obtain ⟨k, v⟩ := c
    simp only [risingCells, Bool.and_eq_true, decide_eq_true_eq] at h ⊢
    exact ⟨⟨by omega, h.1.2⟩, h.2⟩

theorem risingCells_insertCell {size lo a : Nat} {b : Byte} {l : List Host.Cell}
    (h : risingCells size lo l = true) (hlo : lo ≤ a) (ha : a < size) :
    risingCells size lo (insertCell l a b) = true := by
  induction l generalizing lo with
  | nil => simp [insertCell, risingCells, hlo, ha]
  | cons c rest ih =>
    obtain ⟨k, v⟩ := c
    simp only [risingCells, Bool.and_eq_true, decide_eq_true_eq] at h
    simp only [insertCell]
    split
    · simp only [risingCells, Bool.and_eq_true, decide_eq_true_eq]
      exact ⟨⟨hlo, ha⟩, ⟨by omega, h.1.2⟩, h.2⟩
    · split
      · rename_i h1 h2
        subst h2
        simp only [risingCells, Bool.and_eq_true, decide_eq_true_eq]
        exact ⟨⟨hlo, ha⟩, h.2⟩
      · simp only [risingCells, Bool.and_eq_true, decide_eq_true_eq]
        exact ⟨h.1, ih h.2 (by omega)⟩

theorem risingCells_dropCells {size lo p q : Nat} {l : List Host.Cell} (h : risingCells size lo l = true) :
    risingCells size lo (dropCells p q l) = true := by
  induction l generalizing lo with
  | nil => rfl
  | cons c rest ih =>
    obtain ⟨k, v⟩ := c
    simp only [risingCells, Bool.and_eq_true, decide_eq_true_eq] at h
    simp only [dropCells]
    split
    · exact ih (risingCells_mono h.2 (by omega))
    · simp only [risingCells, Bool.and_eq_true, decide_eq_true_eq]
      exact ⟨h.1, ih h.2⟩

theorem Memory.write_wf {m : Memory} {a : Nat} {b : Byte} (h : m.wf = true) (ha : a < m.size) :
    (m.write a b).wf = true :=
  risingCells_insertCell h (Nat.zero_le a) ha

theorem Memory.forget_wf {m : Memory} {b n : Nat} (h : m.wf = true) : (m.forget b n).wf = true :=
  risingCells_dropCells h

theorem Memory.writeBytes_wf {m : Memory} {a : Nat} {bs : List Byte} (h : m.wf = true)
    (ha : a + bs.length ≤ m.size) : (m.writeBytes a bs).wf = true := by
  induction bs generalizing m a with
  | nil => exact h
  | cons b bs ih =>
    rw [List.length_cons] at ha
    exact ih (Memory.write_wf h (by omega)) (by simp; omega)

theorem Memory.powerOn_wf (n : Nat) : (State.powerOn n).mem.wf = true := rfl

end Sys2Proof.Machine
end

