-- ==== Sys2Proof/Laws/Commands.lean ====
section
/-! SUPPORT. Once for each shared operation and each meaning: everything it can do. Invariants and frames
cite these instead of unfolding the machine. -/

namespace Sys2Proof.Machine

/-! ### Model faults and reads -/

theorem State.mem_recordFault (s : State) (k j : Fault) :
    j ∈ (s.recordFault k).faults ↔ j = k ∨ j ∈ s.faults := by
  simp only [State.recordFault]
  split
  · rename_i h
    constructor
    · exact Or.inr
    · rintro (rfl | hj)
      · exact h
      · exact hj
  · simp [or_comm]

theorem State.recordFault_of_none {s : State} (k : Fault) (h : s.faults = []) :
    s.recordFault k = { s with faults := [k] } := by
  simp [State.recordFault, h]

theorem State.readingBytes_cases (s : State) (a n : Nat) (k : List Byte → State) :
    (∃ bs, bs.length = n ∧ s.mem.holds a bs ∧ s.readingBytes a n k = k bs) ∨
    (∃ x, a ≤ x ∧ x < a + n ∧ s.mem.read x = none ∧ (∀ y, a ≤ y → y < x → s.mem.read y ≠ none) ∧
      s.readingBytes a n k = s.recordFault (.uninit x)) := by
  unfold State.readingBytes
  cases h : s.mem.readBytes a n with
  | ok bs =>
    obtain ⟨hl, hh⟩ := (s.mem.readBytes_ok a n bs).1 h
    exact .inl ⟨bs, hl, hh, rfl⟩
  | error x =>
    obtain ⟨h1, h2, h3, h4⟩ := (s.mem.readBytes_error a n x).1 h
    exact .inr ⟨x, h1, h2, h3, h4, rfl⟩

theorem State.readingBytes_of_holds {s : State} {a n : Nat} {bs : List Byte} (k : List Byte → State)
    (hl : bs.length = n) (hh : s.mem.holds a bs) : s.readingBytes a n k = k bs := by
  simp [State.readingBytes, (s.mem.readBytes_ok a n bs).2 ⟨hl, hh⟩]

theorem State.readingBytes_of_none {s : State} {a n x : Nat} (k : List Byte → State)
    (h1 : a ≤ x) (h2 : x < a + n) (h3 : s.mem.read x = none) (h4 : ∀ y, a ≤ y → y < x → s.mem.read y ≠ none) :
    s.readingBytes a n k = s.recordFault (.uninit x) := by
  simp [State.readingBytes, (s.mem.readBytes_error a n x).2 ⟨h1, h2, h3, h4⟩]

theorem State.readingByte_cases (s : State) (a : Nat) (k : Byte → State) :
    (∃ b, s.mem.read a = some b ∧ s.readingByte a k = k b) ∨
    (s.mem.read a = none ∧ s.readingByte a k = s.recordFault (.uninit a)) := by
  unfold State.readingByte
  cases h : s.mem.read a with
  | some b => exact .inl ⟨b, rfl, rfl⟩
  | none => exact .inr ⟨rfl, rfl⟩

theorem State.readingKey_cases (s : State) (a : Nat) (k : Key → State) :
    (∃ key : Key, s.mem.holds a [key.k0, key.k1, key.k2, key.k3] ∧ s.readingKey a k = k key) ∨
    (∃ x, a ≤ x ∧ x < a + 4 ∧ s.mem.read x = none ∧ (∀ y, a ≤ y → y < x → s.mem.read y ≠ none) ∧
      s.readingKey a k = s.recordFault (.uninit x)) := by
  have step : s.readingKey a k = s.readingBytes a 4 fun bs =>
      match bs with
      | [k0, k1, k2, k3] => k ⟨k0, k1, k2, k3⟩
      | _ => s := by
    simp only [State.readingKey, State.readingByte, State.readingBytes, Memory.readBytes]
    cases s.mem.read a <;> simp
    cases s.mem.read (a + 1) <;> simp
    cases s.mem.read (a + 2) <;> simp
    cases s.mem.read (a + 3) <;> simp
  rw [step]
  rcases s.readingBytes_cases a 4 (fun bs => match bs with
      | [k0, k1, k2, k3] => k ⟨k0, k1, k2, k3⟩
      | _ => s) with ⟨bs, hl, hh, he⟩ | h
  · obtain ⟨k0, k1, k2, k3, rfl⟩ : ∃ k0 k1 k2 k3, bs = [k0, k1, k2, k3] := by
      match bs, hl with
      | [k0, k1, k2, k3], _ => exact ⟨k0, k1, k2, k3, rfl⟩
    exact .inl ⟨⟨k0, k1, k2, k3⟩, hh, he⟩
  · exact .inr h

/-! ### The masking engine -/

@[simp] theorem maskFrom_length (key : Key) (i : Fin 4) (s : List Byte) :
    (maskFrom key i s).length = s.length := by
  induction s generalizing i with
  | nil => rfl
  | cons x xs ih => simp [maskFrom, ih]

@[simp] theorem xorMask_length (s : List Byte) (key : Key) : (xorMask s key).length = s.length :=
  maskFrom_length key 0 s

/-! ### The three commands -/

/-- Everything XORMASK can do. -/
theorem xormaskRegion_cases (s : State) :
    (¬ s.mem.inRange (xorBaseOf s) (xorLenOf s) ∧ xormaskRegion s = s.finish .range .none) ∨
    (s.mem.inRange (xorBaseOf s) (xorLenOf s) ∧ ∃ bs, bs.length = xorLenOf s ∧ s.mem.holds (xorBaseOf s) bs ∧
      xormaskRegion s =
        State.finish { s with mem := s.mem.writeBytes (xorBaseOf s) (xorMask bs (xorKeyOf s)) } .ok .none) ∨
    (s.mem.inRange (xorBaseOf s) (xorLenOf s) ∧ ∃ x, s.mem.read x = none ∧
      xormaskRegion s = s.recordFault (.uninit x)) := by
  by_cases h : s.mem.inRange (xorBaseOf s) (xorLenOf s)
  · right
    simp only [xormaskRegion, if_pos h]
    rcases s.readingBytes_cases (xorBaseOf s) (xorLenOf s) (fun bs =>
        State.finish { s with mem := s.mem.writeBytes (xorBaseOf s) (xorMask bs (xorKeyOf s)) } .ok .none)
      with ⟨bs, hl, hh, he⟩ | ⟨x, -, -, hx, -, he⟩
    · exact .inl ⟨h, bs, hl, hh, he⟩
    · exact .inr ⟨h, x, hx, he⟩
  · exact .inl ⟨h, by simp only [xormaskRegion, if_neg h]⟩

/-- Everything ENCODE can do. -/
theorem encodeFrame_cases (fopc : BitVec 4) (fin : Bool) (s : State) :
    (∃ c, (c = .range ∨ c = .capacity ∨ c = .overlap) ∧ encodeFrame fopc fin s = s.encFail c) ∨
    (∃ bs, bs.length = encLenOf s ∧ s.mem.holds (encSrcOf s) bs ∧
      s.mem.inRange (encDstOf s) (encCapOf s) ∧ frameLength (encLenOf s) ≤ encCapOf s ∧
      encodeFrame fopc fin s =
        State.encDone { s with mem := s.mem.writeBytes (encDstOf s) (frameHead fopc fin (encLenOf s) ++ bs) }
          (frameLength (encLenOf s))) ∨
    (∃ x, s.mem.read x = none ∧ encodeFrame fopc fin s = s.recordFault (.uninit x)) := by
  simp only [encodeFrame]
  split
  · rename_i hr
    split
    · exact .inl ⟨.capacity, by simp, rfl⟩
    · rename_i hc
      split
      · exact .inl ⟨.overlap, by simp, rfl⟩
      · rcases s.readingBytes_cases (encSrcOf s) (encLenOf s) (fun bs =>
            State.encDone { s with mem := s.mem.writeBytes (encDstOf s) (frameHead fopc fin (encLenOf s) ++ bs) }
              (frameLength (encLenOf s)))
          with ⟨bs, hl, hh, he⟩ | ⟨x, -, -, hx, -, he⟩
        · exact .inr (.inl ⟨bs, hl, hh, hr.2, by omega, he⟩)
        · exact .inr (.inr ⟨x, hx, he⟩)
  · exact .inl ⟨.range, by simp, rfl⟩

/-- What `State.decMasked` can do. -/
theorem State.decMasked_cases (s : State) (h0 h1 : Byte) (len : Nat) (key : Key) :
    (∃ bs, bs.length = len ∧ s.mem.holds (decBaseOf s + payloadOffset (unpack h0 h1)) bs ∧
      s.decMasked h0 h1 len key = State.decDone
        { s with mem := s.mem.writeBytes (decBaseOf s + payloadOffset (unpack h0 h1)) (xorMask bs key) }
        h0 h1 len (keyRegister key)) ∨
    (∃ x, s.mem.read x = none ∧ s.decMasked h0 h1 len key = s.recordFault (.uninit x)) := by
  rcases s.readingBytes_cases (decBaseOf s + payloadOffset (unpack h0 h1)) len (fun bs => State.decDone
        { s with mem := s.mem.writeBytes (decBaseOf s + payloadOffset (unpack h0 h1)) (xorMask bs key) }
        h0 h1 len (keyRegister key))
    with ⟨bs, hl, hh, he⟩ | ⟨x, -, -, hx, -, he⟩
  · exact .inl ⟨bs, hl, hh, he⟩
  · exact .inr ⟨x, hx, he⟩

/-- A successful DECODE's effect: the frame fits the region, and memory is as it was or holds the unmasked
payload. -/
def State.decodesTo (s t : State) : Prop :=
  ∃ (h0 h1 : Byte) (len : Nat), s.mem.inRange (decBaseOf s) (decAvailOf s) ∧
    payloadOffset (unpack h0 h1) + len ≤ decAvailOf s ∧
    (((unpack h0 h1).mask = false ∧ t = s.decDone h0 h1 len 0#64) ∨
     ((unpack h0 h1).mask = true ∧ ∃ (bs : List Byte) (key : Key), bs.length = len ∧
       t = State.decDone
        { s with mem := s.mem.writeBytes (decBaseOf s + payloadOffset (unpack h0 h1)) (xorMask bs key) }
        h0 h1 len (keyRegister key)))

/-- The three ways `State.decPayload` can end: a truncation, a recorded UNINIT, a decoded frame. -/
theorem State.decPayload_cases (s : State) (h0 h1 : Byte) (len : Nat)
    (hr : s.mem.inRange (decBaseOf s) (decAvailOf s)) :
    (∃ g, g ≠ .none ∧ s.decPayload h0 h1 len = s.decFail .truncated g) ∨
    (∃ x, s.mem.read x = none ∧ s.decPayload h0 h1 len = s.recordFault (.uninit x)) ∨
    s.decodesTo (s.decPayload h0 h1 len) := by
  simp only [State.decPayload]
  split
  · exact .inl ⟨.key, by simp, rfl⟩
  · rename_i hp
    split
    · rename_i hm
      rcases s.readingKey_cases (decBaseOf s + 2 + extSize (unpack h0 h1).len7) (fun key =>
          if decAvailOf s - payloadOffset (unpack h0 h1) < len then s.decFail .truncated .payload
          else s.decMasked h0 h1 len key) with ⟨key, -, he⟩ | ⟨x, -, -, hx, -, he⟩
      · rw [he]
        split
        · exact .inl ⟨.payload, by simp, rfl⟩
        · rename_i hl
          rcases s.decMasked_cases h0 h1 len key with ⟨bs, hbl, -, hd⟩ | ⟨x, hx⟩
          · rw [hd]
            exact .inr (.inr ⟨h0, h1, len, hr, by omega, .inr ⟨hm, bs, key, hbl, rfl⟩⟩)
          · exact .inr (.inl ⟨x, hx⟩)
      · exact .inr (.inl ⟨x, hx, he⟩)
    · rename_i hm
      split
      · exact .inl ⟨.payload, by simp, rfl⟩
      · exact .inr (.inr ⟨h0, h1, len, hr, by omega, .inl ⟨by simpa using hm, rfl⟩⟩)

/-- Everything DECODE can do. -/
theorem decodeFrame_cases (s : State) :
    (∃ c g, ((c = .range ∧ g = .none) ∨ (c = .truncated ∧ g ≠ .none)) ∧ decodeFrame s = s.decFail c g) ∨
    (∃ x, s.mem.read x = none ∧ decodeFrame s = s.recordFault (.uninit x)) ∨
    s.decodesTo (decodeFrame s) := by
  simp only [decodeFrame]
  split
  · rename_i hr
    split
    · exact .inl ⟨.truncated, .hdr, by simp, rfl⟩
    · rcases s.readingByte_cases (decBaseOf s) (fun h0 => s.readingByte (decBaseOf s + 1) fun h1 =>
        s.decExtension h0 h1) with ⟨h0, -, he⟩ | ⟨hx, he⟩
      · rw [he]
        rcases s.readingByte_cases (decBaseOf s + 1) (fun h1 => s.decExtension h0 h1)
          with ⟨h1, -, he⟩ | ⟨hx, he⟩
        · rw [he]
          simp only [State.decExtension]
          split
          · exact .inl ⟨.truncated, .ext, by simp, rfl⟩
          · rcases s.readingBytes_cases (decBaseOf s + 2) (extSize (unpack h0 h1).len7) (fun x =>
              s.decPayload h0 h1 (payloadLength (unpack h0 h1).len7 x))
              with ⟨x, -, -, he⟩ | ⟨x, -, -, hx, -, he⟩
            · rw [he]
              rcases s.decPayload_cases h0 h1 (payloadLength (unpack h0 h1).len7 x) hr with ⟨g, hg, h⟩ | h
              · exact .inl ⟨.truncated, g, .inr ⟨rfl, hg⟩, h⟩
              · exact .inr h
            · exact .inr (.inl ⟨x, hx, he⟩)
        · exact .inr (.inl ⟨_, hx, he⟩)
      · exact .inr (.inl ⟨_, hx, he⟩)
  · exact .inl ⟨.range, .none, by simp, rfl⟩

/-! ### The host's transactions -/

theorem readRegister_cases (r : RegNum) (s : State) :
    readRegister r s = s.recordFault .hazard ∨
    readRegister r s = s.observe (.register r (s.regs.readNumber r)) := by
  unfold readRegister
  split
  · exact .inl rfl
  · exact .inr rfl

theorem State.unlessBusy_cases (s k : State) :
    (s.busy = true ∧ s.unlessBusy k = s.recordFault .hazard) ∨ (s.busy = false ∧ s.unlessBusy k = k) := by
  unfold State.unlessBusy
  cases s.busy
  · exact .inr ⟨rfl, by simp⟩
  · exact .inl ⟨rfl, by simp⟩

theorem readCell_cases (a : Nat) (s : State) :
    (∃ b, s.mem.read a = some b ∧ readCell a s = s.observe (.byte a b)) ∨
    (s.mem.read a = none ∧ readCell a s = s.recordFault (.uninit a)) :=
  s.readingByte_cases a _

theorem State.writeRegister_cases (s : State) (r : RegNum) (v : Word) :
    s.writeRegister r v = s ∨
    (∃ n u, regNumOf n = r ∧ s.writeRegister r v = { s with regs := s.regs.set n u } ∧
      ((regAccess n = .rw ∧ u = v) ∨ (regAccess n = .rwWarl ∧ u = v &&& implementedBits n))) ∨
    (r = regNumOf .cmd ∧ s.writeRegister r v = s.issue v) := by
  unfold State.writeRegister
  cases h : regNameOf r with
  | none => exact .inl rfl
  | some n =>
    have hr := regNumOf_of_regNameOf h
    cases n <;>
      first
        | exact .inl rfl
        | exact .inr (.inr ⟨hr.symm, rfl⟩)
        | exact .inr (.inl ⟨_, v, hr, rfl, .inl ⟨rfl, rfl⟩⟩)
        | exact .inr (.inl ⟨_, _, hr, rfl, .inr ⟨rfl, rfl⟩⟩)

/-! ### One step -/

/-- Everything a step can do. -/
theorem step_cases (s : State) :
    (∃ k rest, s.faults = k :: rest ∧ step s = .fault k) ∨
    (s.faults = [] ∧
      ((∃ w, s.mover = some .engine ∧ s.pending = some w ∧ step s = engineStep w s.takeTurn) ∨
       (∃ t rest, s.mover = some .host ∧ s.nextTransaction = some (t, rest) ∧
          step s = hostStep t rest s.takeTurn) ∨
       (s.mover = none ∧ step s = .next s))) := by
  cases hf : s.faults with
  | cons k rest => exact .inl ⟨k, rest, rfl, by simp [step, hf]⟩
  | nil =>
    refine .inr ⟨rfl, ?_⟩
    cases hp : s.pending with
    | none =>
      cases hn : s.nextTransaction with
      | none =>
        have hm : s.mover = none := by
          simp [State.mover, State.engineEnabled, State.hostEnabled, hp, hn]
        exact .inr (.inr ⟨hm, by simp [step, hf, hm]⟩)
      | some tr =>
        obtain ⟨t, rest⟩ := tr
        have hm : s.mover = some .host := by
          simp [State.mover, State.engineEnabled, State.hostEnabled, hp, hn, hf]
        exact .inr (.inl ⟨t, rest, hm, rfl, by simp [step, hf, hm, hn]⟩)
    | some w =>
      cases hn : s.nextTransaction with
      | none =>
        have hm : s.mover = some .engine := by
          simp [State.mover, State.engineEnabled, State.hostEnabled, hp, hn, hf]
        exact .inl ⟨w, hm, rfl, by simp [step, hf, hm, hp]⟩
      | some tr =>
        obtain ⟨t, rest⟩ := tr
        have hm : s.mover = some s.choice := by
          simp [State.mover, State.engineEnabled, State.hostEnabled, hp, hn, hf]
        cases hc : s.choice with
        | engine => exact .inl ⟨w, by rw [hm, hc], rfl, by simp [step, hf, hm, hc, hp]⟩
        | host => exact .inr (.inl ⟨t, rest, by rw [hm, hc], rfl, by simp [step, hf, hm, hc, hn]⟩)

/-! ### The two agents' steps -/

/-- A command word decodes to one of ENGINE's three commands or to none. -/
theorem decodeCommand_cases (w : Word) :
    decodeCommand w = .ok .decode ∨ (∃ o f, decodeCommand w = .ok (.encode o f)) ∨
    decodeCommand w = .ok .xormask ∨ (∃ e, decodeCommand w = .error e) := by
  simp only [decodeCommand]
  split_ifs
  · exact .inl rfl
  · exact .inr (.inr (.inr ⟨_, rfl⟩))
  · exact .inr (.inl ⟨_, _, rfl⟩)
  · exact .inr (.inr (.inr ⟨_, rfl⟩))
  · exact .inr (.inr (.inl rfl))
  · exact .inr (.inr (.inr ⟨_, rfl⟩))
  · exact .inr (.inr (.inr ⟨_, rfl⟩))

/-- Everything ENGINE's step can do: it always ends in a next state. -/
theorem engineStep_cases (w : Word) (s : State) :
    (decodeCommand w = .ok .decode ∧ engineStep w s = .next (decodeFrame s)) ∨
    (∃ o f, decodeCommand w = .ok (.encode o f) ∧ engineStep w s = .next (encodeFrame o f s)) ∨
    (decodeCommand w = .ok .xormask ∧ engineStep w s = .next (xormaskRegion s)) ∨
    (∃ e, decodeCommand w = .error e ∧ engineStep w s = .next s.badCommand) := by
  rcases decodeCommand_cases w with h | ⟨o, f, h⟩ | h | ⟨e, h⟩
  · exact .inl ⟨h, by simp only [engineStep, h]; rfl⟩
  · exact .inr (.inl ⟨o, f, h, by simp only [engineStep, h]; rfl⟩)
  · exact .inr (.inr (.inl ⟨h, by simp only [engineStep, h]; rfl⟩))
  · exact .inr (.inr (.inr ⟨e, h, by simp only [engineStep, h]⟩))

/-- A bus tuple decodes to a host transaction, and to a WR of no register CMD. -/
theorem decodeBus_transaction {t : BusTuple} {i : Instr} (h : decodeBus t = .ok i) :
    i.isTransaction = true ∧ ∀ v, i ≠ .wr 0#6 v := by
  unfold decodeBus at h
  split at h
  · split at h <;> cases h
    exact ⟨rfl, by simp⟩
  · split at h <;> cases h
    split
    · exact ⟨rfl, by simp⟩
    · refine ⟨rfl, fun v hv => ?_⟩
      cases hv
      contradiction
  · cases h; exact ⟨rfl, by simp⟩
  · split at h <;> cases h
    exact ⟨rfl, by simp⟩
  · cases h; exact ⟨rfl, by simp⟩
  · cases h

/-- Everything HOST's step can do when it ends in a next state; `g` is the state with the rest of the
program left. -/
theorem hostStep_cases {s t : State} {bus : BusTuple} {rest : List HostOp}
    (h : hostStep bus rest s = .next t) :
    let g : State := { s with host := rest }
    ∃ i, decodeBus bus = .ok i ∧
      ((∃ k, t = g.recordFault k) ∨
       (∃ o, t = g.observe o) ∨
       (∃ r v, i = .wr r v ∧ r ≠ 0#6 ∧ s.busy = false ∧ t = g.writeRegister r v) ∨
       (∃ v, i = .wrCmd v ∧ s.busy = false ∧ t = g.issue v) ∨
       (∃ a b, i = .mwr a b ∧ a < s.mem.size ∧ s.busy = false ∧ t = { g with mem := s.mem.write a b }) ∨
       (i = .rst ∧ t = g.resetAssert)) := by
  intro g
  simp only [hostStep] at h
  split at h
  case h_2 => cases h
  case h_1 i hi =>
    refine ⟨i, hi, ?_⟩
    obtain ⟨htx, hwr⟩ := decodeBus_transaction hi
    cases i with
    | decode => cases htx
    | encode => cases htx
    | xormask => cases htx
    | rd r =>
      cases h
      rcases readRegister_cases r g with h | h
      · exact .inl ⟨_, h⟩
      · exact .inr (.inl ⟨_, h⟩)
    | wr r v =>
      cases h
      rcases State.unlessBusy_cases g (g.writeRegister r v) with ⟨hb, h⟩ | ⟨hb, h⟩
      · exact .inl ⟨_, h⟩
      · refine .inr (.inr (.inl ⟨r, v, rfl, ?_, hb, h⟩))
        rintro rfl
        exact hwr v rfl
    | wrCmd v =>
      cases h
      rcases State.unlessBusy_cases g (g.issue v) with ⟨hb, h⟩ | ⟨hb, h⟩
      · exact .inl ⟨_, h⟩
      · exact .inr (.inr (.inr (.inl ⟨v, rfl, hb, h⟩)))
    | mrd a =>
      simp only [exec, execMrd] at h
      split at h <;> cases h
      rcases State.unlessBusy_cases g (readCell a g) with ⟨hb, h⟩ | ⟨hb, h⟩
      · exact .inl ⟨_, h⟩
      · rcases readCell_cases a g with ⟨b, -, h'⟩ | ⟨-, h'⟩
        · exact .inr (.inl ⟨_, h.trans h'⟩)
        · exact .inl ⟨_, h.trans h'⟩
    | mwr a b =>
      simp only [exec, execMwr] at h
      split at h <;> cases h
      rename_i ha
      rcases State.unlessBusy_cases g { g with mem := s.mem.write a b } with ⟨hb, h⟩ | ⟨hb, h⟩
      · exact .inl ⟨_, h⟩
      · exact .inr (.inr (.inr (.inr (.inl ⟨a, b, rfl, ha, hb, h⟩))))
    | rst => cases h; exact .inr (.inr (.inr (.inr (.inr ⟨rfl, rfl⟩))))

/-! ### Runs -/

theorem run_next (M : Host.Core) (k : Nat) {s t : M.State} (h : M.step s = .next t) :
    M.run (k + 1) s = M.run k t := by
  simp [Host.Core.run, h]

theorem run_fault (M : Host.Core) (k : Nat) {s : M.State} {r : M.Fault} (h : M.step s = .fault r) :
    M.run (k + 1) s = .fault r := by
  simp [Host.Core.run, h]

/-- A run whose first step is `step s = .next t`. -/
theorem core_run_next (k : Nat) {s t : State} (h : step s = .next t) :
    Sys2Proof.core.run (k + 1) s = Sys2Proof.core.run k t := run_next Sys2Proof.core k h

/-- A run whose first step stops with a fault. -/
theorem core_run_fault (k : Nat) {s : State} {r : Fault} (h : step s = .fault r) :
    Sys2Proof.core.run (k + 1) s = .fault r := run_fault Sys2Proof.core k h

end Sys2Proof.Machine
end

