-- ==== Sys2Proof/Laws/PerInstr.lean ====
section
/-! SUPPORT. Laws stated per instruction: each instruction has the format its opcode-table row gives it. -/

namespace Sys2Proof.Laws.TableFormat

/-- An ENGINE command is encoded by a word that selects exactly one row of the opcode map, a host
transaction by a bus tuple (opcode_table.json, formats CMD64 and HOSTBUS; 30_encoding.md R86). -/
def Statement (i : Instr) : Prop :=
  match encode i with
  | .command w => i.isTransaction = false ∧
      ([decodeRow, encodeRow, xormaskRow].filter fun row => row.selects w).length = 1
  | .bus _ => i.isTransaction = true

theorem decode : Statement .decode := ⟨rfl, by decide⟩
theorem encode (fopc : BitVec 4) (fin : Bool) : Statement (.encode fopc fin) :=
  ⟨rfl, by revert fopc fin; decide⟩
theorem xormask : Statement .xormask := ⟨rfl, by decide⟩
theorem rd (r : RegNum) : Statement (.rd r) := rfl
theorem wr (r : RegNum) (v : Word) : Statement (.wr r v) := rfl
theorem wrCmd (v : Word) : Statement (.wrCmd v) := rfl
theorem mrd (a : Nat) : Statement (.mrd a) := rfl
theorem mwr (a : Nat) (b : Byte) : Statement (.mwr a b) := rfl
theorem rst : Statement .rst := rfl

end Sys2Proof.Laws.TableFormat
end

