-- ==== Sys2Proof/Laws/Runs.lean ====
section
/-! SUPPORT. No meaning depends on the host's program or the schedule; what one step of a run can do, and how a
run goes on, for every host program and schedule. -/

namespace Sys2Proof.Machine

/-! ### The host's program and the schedule are no operand of any meaning -/

/-- `s` with another host program and schedule. -/
def State.replan (s : State) (p : List HostOp) (l : List Agent) : State := { s with host := p, schedule := l }

section
variable (s : State) (p : List HostOp) (l : List Agent)

@[simp] theorem State.replan_regs : (s.replan p l).regs = s.regs := rfl
@[simp] theorem State.replan_mem : (s.replan p l).mem = s.mem := rfl
@[simp] theorem State.replan_pending : (s.replan p l).pending = s.pending := rfl
@[simp] theorem State.replan_faults : (s.replan p l).faults = s.faults := rfl
@[simp] theorem State.replan_host : (s.replan p l).host = p := rfl
@[simp] theorem State.replan_observed : (s.replan p l).observed = s.observed := rfl
@[simp] theorem State.replan_schedule : (s.replan p l).schedule = l := rfl
@[simp] theorem State.replan_busy : (s.replan p l).busy = s.busy := rfl

theorem State.readingBytes_replan (a n : Nat) {k k' : List Byte → State}
    (h : ∀ bs, k' bs = (k bs).replan p l) :
    (s.replan p l).readingBytes a n k' = (s.readingBytes a n k).replan p l := by
  simp only [State.readingBytes, State.replan_mem]
  split
  · exact h _
  · rfl

theorem State.readingByte_replan (a : Nat) {k k' : Byte → State} (h : ∀ b, k' b = (k b).replan p l) :
    (s.replan p l).readingByte a k' = (s.readingByte a k).replan p l := by
  simp only [State.readingByte, State.replan_mem]
  split
  · exact h _
  · rfl

theorem State.readingKey_replan (a : Nat) {k k' : Key → State} (h : ∀ key, k' key = (k key).replan p l) :
    (s.replan p l).readingKey a k' = (s.readingKey a k).replan p l :=
  s.readingByte_replan p l _ fun _ => s.readingByte_replan p l _ fun _ => s.readingByte_replan p l _ fun _ =>
    s.readingByte_replan p l _ fun _ => h _

theorem ite_replan {q : Prop} [Decidable q] {x x' y y' : State} (hx : x' = x.replan p l)
    (hy : y' = y.replan p l) : (if q then x' else y') = (if q then x else y).replan p l := by
  split
  · exact hx
  · exact hy

theorem xormaskRegion_replan : xormaskRegion (s.replan p l) = (xormaskRegion s).replan p l :=
  ite_replan p l (s.readingBytes_replan p l _ _ fun _ => rfl) rfl

theorem encodeFrame_replan (fopc : BitVec 4) (fin : Bool) :
    encodeFrame fopc fin (s.replan p l) = (encodeFrame fopc fin s).replan p l :=
  ite_replan p l (ite_replan p l rfl <| ite_replan p l rfl <| s.readingBytes_replan p l _ _ fun _ => rfl) rfl

theorem State.decPayload_replan (h0 h1 : Byte) (len : Nat) :
    (s.replan p l).decPayload h0 h1 len = (s.decPayload h0 h1 len).replan p l :=
  ite_replan p l rfl <|
    ite_replan p l
      (s.readingKey_replan p l _ fun _ => ite_replan p l rfl (s.readingBytes_replan p l _ _ fun _ => rfl))
      (ite_replan p l rfl rfl)

theorem State.decExtension_replan (h0 h1 : Byte) :
    (s.replan p l).decExtension h0 h1 = (s.decExtension h0 h1).replan p l :=
  ite_replan p l rfl (s.readingBytes_replan p l _ _ fun _ => s.decPayload_replan p l h0 h1 _)

theorem decodeFrame_replan : decodeFrame (s.replan p l) = (decodeFrame s).replan p l :=
  ite_replan p l
    (ite_replan p l rfl <|
      s.readingByte_replan p l _ fun h0 => s.readingByte_replan p l _ fun h1 => s.decExtension_replan p l h0 h1)
    rfl

/-- The outcome with another host program and schedule in its next state. -/
def replanOutcome (p : List HostOp) (l : List Agent) :
    Host.Outcome State Fault Refusal → Host.Outcome State Fault Refusal
  | .next t => .next (t.replan p l)
  | .fault k => .fault k
  | .refused r => .refused r

theorem replanOutcome_ite {q : Prop} [Decidable q] {x x' y y' : Host.Outcome State Fault Refusal}
    (hx : x' = replanOutcome p l x) (hy : y' = replanOutcome p l y) :
    (if q then x' else y') = replanOutcome p l (if q then x else y) := by
  split
  · exact hx
  · exact hy

theorem State.writeRegister_replan (r : RegNum) (v : Word) :
    (s.replan p l).writeRegister r v = (s.writeRegister r v).replan p l := by
  simp only [State.writeRegister]
  split
  · rfl
  · split <;> rfl

theorem State.unlessBusy_replan {k k' : State} (h : k' = k.replan p l) :
    (s.replan p l).unlessBusy k' = (s.unlessBusy k).replan p l :=
  ite_replan p l rfl h

theorem readRegister_replan (r : RegNum) : readRegister r (s.replan p l) = (readRegister r s).replan p l :=
  ite_replan p l rfl rfl

theorem readCell_replan (a : Nat) : readCell a (s.replan p l) = (readCell a s).replan p l :=
  s.readingByte_replan p l a fun _ => rfl

/-- No meaning reads the host's program or the schedule, or writes them. -/
theorem exec_replan (i : Instr) : exec i (s.replan p l) = replanOutcome p l (exec i s) := by
  cases i with
  | decode => exact congrArg Host.Outcome.next (decodeFrame_replan s p l)
  | encode fopc fin => exact congrArg Host.Outcome.next (encodeFrame_replan s p l fopc fin)
  | xormask => exact congrArg Host.Outcome.next (xormaskRegion_replan s p l)
  | rd r => exact congrArg Host.Outcome.next (readRegister_replan s p l r)
  | wr r v =>
    exact congrArg Host.Outcome.next (s.unlessBusy_replan p l (s.writeRegister_replan p l r v))
  | wrCmd v => exact congrArg Host.Outcome.next (s.unlessBusy_replan p l (k := s.issue v) rfl)
  | mrd a =>
    exact replanOutcome_ite p l
      (congrArg Host.Outcome.next (s.unlessBusy_replan p l (readCell_replan s p l a))) rfl
  | mwr a b =>
    exact replanOutcome_ite p l
      (congrArg Host.Outcome.next
        (s.unlessBusy_replan p l (k := { s with mem := s.mem.write a b }) rfl)) rfl
  | rst => rfl

theorem engineStep_replan (w : Word) :
    engineStep w (s.replan p l) = replanOutcome p l (engineStep w s) := by
  simp only [engineStep]
  split
  · exact exec_replan s p l _
  · rfl

end

/-! ### The program's well-formedness check -/

/-- The two checks of 43_host_transactions.md R194 agree on a straight-line program. -/
theorem HostProgram.wellFormed_ofList {n : Nat} {ts : List BusTuple}
    (h : hostProgramWellFormed n (ts.map .txn) = true) : (HostProgram.ofList ts).wellFormed n := by
  intro k _ t ht
  have hop := List.all_eq_true.1 h (.txn t) (List.mem_map_of_mem (List.mem_of_getElem? ht))
  simp only [hostOpWellFormed] at hop
  split at hop
  · exact ⟨_, ‹_›, hop⟩
  · cases hop

/-- All that `wait` sends is a STATUS read. -/
theorem HostProgram.wait_sends {k : Nat} {obs : List Observed} {t : BusTuple}
    (h : HostProgram.wait k obs = some t) : t = ⟨.rd, some (regNumOf .status).toNat, none⟩ := by
  simp only [HostProgram.wait] at h
  split at h
  · split_ifs at h; exact (Option.some.inj h).symm
  · exact (Option.some.inj h).symm
  · exact (Option.some.inj h).symm
  · exact (Option.some.inj h).symm

/-- `wait` reads STATUS at least once. -/
@[simp] theorem HostProgram.wait_zero (obs : List Observed) :
    HostProgram.wait 0 obs = some ⟨.rd, some (regNumOf .status).toNat, none⟩ := rfl

/-- After a STATUS read that returned `v`, `wait` goes on exactly if bit 0 of `v` is 1. -/
@[simp] theorem HostProgram.wait_succ (k : Nat) (obs : List Observed) (v : Word) :
    HostProgram.wait (k + 1) (obs ++ [.register (regNumOf .status) v]) =
      if v.getLsbD 0 = false then none else some ⟨.rd, some (regNumOf .status).toNat, none⟩ := by
  simp [HostProgram.wait]

theorem HostProgram.wellFormed_wait (n : Nat) : HostProgram.wait.wellFormed n := by
  intro k obs t h
  rw [HostProgram.wait_sends h]
  exact ⟨.rd (regNumOf .status), by decide, rfl⟩

/-! ### One step of a run -/

variable {P : HostProgram} {σ : Schedule} {a b : Agent} {c d : Play}

@[simp] theorem outcomeAt_next (n : Nat) (s : State) : outcomeAt n (.next s) = .next ⟨s, n⟩ := rfl
@[simp] theorem outcomeAt_refused (n : Nat) (r : Refusal) : outcomeAt n (.refused r) = .refused r := rfl

/-- Only an enabled agent moves. -/
theorem Play.enabled_of_mover (h : c.mover P a = some b) : c.enabled P b = true := by
  cases a <;> simp only [Play.mover] at h <;> split_ifs at h <;> simp_all

/-- Where an agent is enabled, one moves. -/
theorem Play.mover_isSome (h : c.enabled P b = true) : ∃ b', c.mover P a = some b' := by
  unfold Play.mover
  cases a <;> cases b <;> simp only <;> split_ifs <;> simp_all

theorem Play.enabled_engine :
    c.enabled P .engine = true ↔ c.state.pending ≠ none ∧ c.state.faults = [] := by
  simp [Play.enabled, State.engineEnabled, Option.isSome_iff_ne_none]

theorem Play.enabled_host :
    c.enabled P .host = true ↔ (∃ t, c.transaction P = some t) ∧ c.state.faults = [] := by
  simp [Play.enabled, Option.isSome_iff_exists]

/-- Everything one step of a run can do. -/
theorem Play.next_cases (P : HostProgram) (a : Agent) (c : Play) :
    (c.mover P a = none ∧ c.next P a = .next c) ∨
    (∃ w, c.mover P a = some .engine ∧ c.state.pending = some w ∧ c.state.faults = [] ∧
      c.next P a = outcomeAt c.sent (engineStep w c.state)) ∨
    (∃ t, c.mover P a = some .host ∧ c.transaction P = some t ∧ c.state.faults = [] ∧
      c.next P a = outcomeAt (c.sent + 1) (hostStep t c.state.host c.state)) := by
  cases hm : c.mover P a with
  | none => exact .inl ⟨rfl, by simp [Play.next, hm]⟩
  | some b =>
    cases b with
    | engine =>
      obtain ⟨hp, hf⟩ := Play.enabled_engine.1 (Play.enabled_of_mover hm)
      obtain ⟨w, hw⟩ := Option.ne_none_iff_exists'.1 hp
      exact .inr (.inl ⟨w, rfl, hw, hf, by simp [Play.next, hm, hw]⟩)
    | host =>
      obtain ⟨⟨t, ht⟩, hf⟩ := Play.enabled_host.1 (Play.enabled_of_mover hm)
      exact .inr (.inr ⟨t, rfl, ht, hf, by simp [Play.next, hm, ht]⟩)

/-! ### A run goes on -/

theorem play_succ_of_next {n : Nat} (h : (play P σ c n).next P (σ n) = .next d) :
    play P σ c (n + 1) = d := by
  simp [play, h]

theorem play_succ_of_refused {n : Nat} {r : Refusal} (h : (play P σ c n).next P (σ n) = .refused r) :
    play P σ c (n + 1) = play P σ c n := by
  simp [play, h]

/-- A run's first step, then the rest of the run under the rest of the schedule. -/
theorem play_shift (P : HostProgram) (σ : Schedule) (c : Play) (n : Nat) :
    play P σ c (n + 1) = play P (fun k => σ (k + 1)) (play P σ c 1) n := by
  induction n with
  | zero => rfl
  | succ n ih =>
    rw [play.eq_def P (fun k => σ (k + 1)), play.eq_def P σ c (n + 1 + 1)]
    simp only [ih]

/-- A property that every step keeps holds at every point of a run that starts with it. -/
theorem play_induction (Q : Play → Prop)
    (keeps : ∀ (a : Agent) (c d : Play), Q c → c.next P a = .next d → Q d) (h : Q c) (n : Nat) :
    Q (play P σ c n) := by
  induction n with
  | zero => exact h
  | succ n ih =>
    cases hn : (play P σ c n).next P (σ n) with
    | next d => rw [play_succ_of_next hn]; exact keeps _ _ _ ih hn
    | fault k => simpa [play, hn] using ih
    | refused r => rw [play_succ_of_refused hn]; exact ih

theorem Play.mover_none (h : ∀ b, c.enabled P b = false) : c.mover P a = none := by
  cases a <;> simp [Play.mover, h]

theorem Play.next_of_mover_none (h : c.mover P a = none) : c.next P a = .next c := by
  simp [Play.next, h]

/-- Where no agent can step the run stays. -/
theorem play_stays {k m : Nat} (h : ∀ b, (play P σ c k).enabled P b = false) (hk : k ≤ m) :
    play P σ c m = play P σ c k := by
  induction m, hk using Nat.le_induction with
  | base => rfl
  | succ m _ ih => rw [play_succ_of_next (Play.next_of_mover_none (Play.mover_none (by rwa [ih]))), ih]

/-- Every schedule is weakly fair on a run that ends. -/
theorem weaklyFair_of_ends (k : Nat) (h : ∀ b, (play P σ c k).enabled P b = false) : weaklyFair P σ c := by
  intro b n hn
  have he := hn (max n k) (le_max_left n k)
  rw [play_stays h (le_max_right n k), h b] at he
  cases he

end Sys2Proof.Machine
end

