-- ==== Sys2Proof/Tests/Slice0.lean ====
section
/-! SUPPORT. Tests with expected values from spec/95_test_vectors.md (each docstring names the vector), and
for every obligation with hypotheses a state and operands that meet them. -/

namespace Sys2Proof.Tests

open Sys2Proof.Machine

/-- The next state of an outcome. -/
def nextOf : Host.Outcome State Fault Refusal → Option State
  | .next t => some t
  | .fault _ => none
  | .refused _ => none

/-- The refusal of an outcome. -/
def refusalOf : Host.Outcome State Fault Refusal → Option Refusal
  | .next _ => none
  | .fault _ => none
  | .refused r => some r

/-- A power-on machine of `size` cells with bytes `bs` from `base` on. -/
def machine (size base : Nat) (bs : List Byte) : State :=
  { State.powerOn size with mem := Memory.writeBytes { size := size, cells := [] } base bs }

/-- `s` with DEC_BASE and DEC_AVAIL set and DECODE issued. -/
def decoding (s : State) (b n : Word) : State :=
  State.issue { s with regs := { s.regs with decBase := b, decAvail := n } } 0x1#64

/-- `s` with XOR_BASE, XOR_LEN and XOR_KEY set and XORMASK issued. -/
def masking (s : State) (b n k : Word) : State :=
  State.issue { s with regs := { s.regs with xorBase := b, xorLen := n, xorKey := k } } 0x3#64

/-- `s` with ENCODE's operands set and the word `w` issued. -/
def encoding (s : State) (src len dst cap w : Word) : State :=
  State.issue { s with regs := { s.regs with encSrc := src, encLen := len, encDst := dst, encCap := cap } } w

/-- STATUS and the five DEC_* result registers. -/
def decResults (s : State) : List Word :=
  [s.regs.status, s.regs.decHdr, s.regs.decPlen, s.regs.decPoff, s.regs.decKey, s.regs.decFlen]

/-- The cells of `[a, a+n)`. -/
def bytes (s : State) (a n : Nat) : List (Option Byte) := (List.range n).map fun i => s.mem.read (a + i)

/-- The frame of vector D1. -/
def hiFrame : List Byte := [0x81#8, 0x82#8, 0xA1#8, 0xB2#8, 0xC3#8, 0xD4#8, 0xC9#8, 0xDB#8]

/-! ### WellFormed refuses an ill-formed term (43_host_transactions.md R192, R194, R195) -/

theorem test_wr_of_cmd_is_ill_formed : (Instr.wr 0x00#6 0x1#64).wellFormed 16 = false := by decide
theorem test_mrd_at_size_is_ill_formed : (Instr.mrd 16).wellFormed 16 = false := by decide
theorem test_mwr_at_size_is_ill_formed : (Instr.mwr 16 0#8).wellFormed 16 = false := by decide
theorem test_last_cell_is_well_formed : (Instr.mrd 15).wellFormed 16 = true := by decide
theorem test_program_past_memory_is_ill_formed :
    hostProgramWellFormed 16 [hostSb 16 0#8] = false ∧ hostProgramWellFormed 16 [.copy 0 9 8] = false ∧
    hostProgramWellFormed 16 [.txn ⟨.rst, some 0, none⟩] = false := by decide

/-! ### Decoding: words and tuples written out from 30_encoding.md R81 and R87 -/

theorem test_decode_word : decodeCommand 0b1#64 = .ok .decode := by decide
/-- OP 0x2 in 3:0, FOPC 0x9 in 7:4, FIN 1 in 8. -/
theorem test_encode_word : decodeCommand 0b1_1001_0010#64 = .ok (.encode 0x9#4 true) := by decide
theorem test_encode_word_fin0 : decodeCommand 0b0_0001_0010#64 = .ok (.encode 0x1#4 false) := by decide
theorem test_xormask_word : decodeCommand 0b11#64 = .ok .xormask := by decide
theorem test_rd_tuple : decodeBus ⟨.rd, some 0x0B, none⟩ = .ok (.rd 0x0B#6) := by decide
theorem test_wr_tuple : decodeBus ⟨.wr, some 0x08, some 8⟩ = .ok (.wr 0x08#6 8#64) := by decide
theorem test_wr_cmd_tuple : decodeBus ⟨.wr, some 0x00, some 0x112⟩ = .ok (.wrCmd 0x112#64) := by decide
theorem test_mrd_tuple : decodeBus ⟨.mrd, some 0x10D, none⟩ = .ok (.mrd 0x10D) := by decide
theorem test_mwr_tuple : decodeBus ⟨.mwr, some 0x10D, some 0x68⟩ = .ok (.mwr 0x10D 0x68#8) := by decide
theorem test_rst_tuple : decodeBus ⟨.rst, none, none⟩ = .ok .rst := by decide
/-- Section 6: every illegal word, and tuples that are no transaction. -/
theorem test_illegal_encodings :
    ([0x0#64, 0x4#64, 0xF#64, 0x11#64, 0x212#64, 0x103#64, 0x1000000000000001#64].all fun w =>
      !(decodeCommand w).isOk) = true ∧
    ([⟨.rd, some 0x40, none⟩, ⟨.wr, some 1, none⟩, ⟨.wr, some 0, some (2 ^ 64)⟩, ⟨.mwr, some 0, some 256⟩,
        ⟨.rst, some 0, none⟩].all fun t : BusTuple => !(decodeBus t).isOk) = true := by decide
theorem test_table_words :
    decodeTableWord 64 0x1 = some .decode ∧ decodeTableWord 64 0x1F2 = some (.encode 0xF#4 true) ∧
    decodeTableWord 64 0x3 = some .xormask ∧ decodeTableWord 64 0x4 = none := by decide

/-! ### The pure sub-units (vectors V3, V6, V14, V16, K2, K7, K9, and xor_mask) -/

theorem test_V3 : unpack 0x7F#8 0xFF#8 = ⟨false, true, true, true, 0xF#4, true, 127#7⟩ := by decide
theorem test_V6_V7 :
    headerFlags true false false 0x2#4 = ⟨true, true, true⟩ ∧
    headerFlags false false true 0x1#4 = ⟨true, false, true⟩ := by decide
theorem test_V14_V16 :
    payloadLength 126#7 [0x00#8, 0x05#8] = 5 ∧
    payloadLength 127#7 [0x80#8, 0#8, 0#8, 0#8, 0#8, 0#8, 0#8, 0#8] = 2 ^ 63 := by decide
theorem test_K2 : pack false 0x9#4 1#7 = [0x09#8, 0x01#8] := by decide
theorem test_K7_K8_K10 :
    encodeLength 126 = (126#7, [0x00#8, 0x7E#8]) ∧ encodeLength 65535 = (126#7, [0xFF#8, 0xFF#8]) ∧
    encodeLength (2 ^ 32) = (127#7, [0#8, 0#8, 0#8, 1#8, 0#8, 0#8, 0#8, 0#8]) := by decide
theorem test_xor_mask :
    xorMask [0xFF#8, 0xFF#8, 0xFF#8, 0xFF#8, 0xFF#8] ⟨0x01#8, 0x02#8, 0x04#8, 0x08#8⟩ =
      [0xFE#8, 0xFD#8, 0xFB#8, 0xF7#8, 0xFE#8] := by decide

/-! ### One step of each instruction -/

/-- D1. -/
theorem test_D1 :
    (nextOf (step (decoding (machine 0x100 0 hiFrame) 0#64 8#64))).map (fun t =>
      (decResults t, bytes t 5 4, t.pending)) =
    some ([0x1002#64, 0x8182#64, 2#64, 6#64, 0xA1B2C3D4#64, 8#64],
      [some 0xD4#8, some 0x68#8, some 0x69#8, none], none) := by decide
/-- D14: UNINIT at the first key byte; the registers keep their values and BUSY stays 1. -/
theorem test_D14 :
    (nextOf (step (decoding (machine 16 8 [0x81#8, 0x82#8]) 8#64 8#64))).map (fun t =>
      (decResults t, t.faults, t.pending)) =
    some ([0x1001#64, 0#64, 0#64, 0#64, 0#64, 0#64], [.uninit 0x0A], some 0x1#64) := by decide
/-- E7b: the frame, and the cell after it untouched. -/
theorem test_E7b :
    (nextOf (step (encoding (machine 0x400 0x100 [1#8, 2#8, 3#8]) 0x100#64 3#64 0x200#64 5#64 0x112#64))).map
      (fun t => (t.regs.status, t.regs.encOutlen, bytes t 0x200 6)) =
    some (0x2002#64, 5#64, [some 0x81#8, some 0x03#8, some 1#8, some 2#8, some 3#8, none]) := by decide
/-- E8a: OVERLAP. -/
theorem test_E8a :
    (nextOf (step (encoding (machine 0x40 0x10 [1#8, 2#8, 3#8, 4#8]) 0x10#64 4#64 0x0E#64 6#64 0x112#64))).map
      (fun t => (t.regs.status, t.regs.encOutlen, bytes t 0x0E 3)) =
    some (0x2042#64, 0#64, [none, none, some 1#8]) := by decide
/-- X1: five bytes, so the key index wraps. -/
theorem test_X1 :
    (nextOf (step (masking (machine 0x40 0x10 [0x48#8, 0x65#8, 0x6C#8, 0x6C#8, 0x6F#8]) 0x10#64 5#64
      0x37FA213D#64))).map (fun t => (t.regs.status, bytes t 0x10 5)) =
    some (0x3002#64, [some 0x7F#8, some 0x9F#8, some 0x4D#8, some 0x51#8, some 0x58#8]) := by decide
/-- X8: UNINIT(0x11), and the first byte stays. -/
theorem test_X8 :
    (nextOf (step (masking (machine 0x40 0x10 [0x55#8]) 0x10#64 2#64 0x01020304#64))).map (fun t =>
      (t.regs.status, t.faults, bytes t 0x10 2)) =
    some (0x3001#64, [.uninit 0x11], [some 0x55#8, none]) := by decide
/-- Section 6, word 0x212. -/
theorem test_bad_command :
    (nextOf (step ((machine 16 0 []).issue 0x212#64))).map (fun t => (t.regs.status, t.pending)) =
    some (0x2052#64, none) := by decide
/-- H6, and H7 while BUSY. -/
theorem test_H6_H7 :
    (nextOf (exec (.rd 0x01#6) (decoding (machine 16 0 []) 0#64 0#64))).map (fun t => (t.observed, t.faults)) =
      some ([.register 0x01#6 0x1001#64], []) ∧
    (nextOf (exec (.rd 0x0B#6) (decoding (machine 16 0 []) 0#64 0#64))).map (fun t => (t.observed, t.faults)) =
      some ([], [.hazard]) := by decide
/-- H3: an unmapped number reads 0. -/
theorem test_H3 :
    (nextOf (exec (.rd 0x3F#6) (machine 16 0 []))).map (·.observed) = some [.register 0x3F#6 0#64] := by decide
/-- H2, X9: XOR_KEY stores its implemented bits. -/
theorem test_H2 :
    (nextOf (exec (.wr 0x1A#6 0xFFFFFFFF12345678#64) (machine 16 0 []))).map (·.regs.xorKey) =
      some 0x12345678#64 := by decide
/-- H4 (read-only) and H8 (BUSY). -/
theorem test_H4_H8 :
    nextOf (exec (.wr 0x0A#6 5#64) (machine 16 0 [])) = some (machine 16 0 []) ∧
    (nextOf (exec (.wr 0x08#6 9#64) (decoding (machine 16 0 []) 1#64 0#64))).map (fun t =>
      (t.regs.decBase, t.faults)) = some (1#64, [.hazard]) := by decide
/-- R193's example, and H9. -/
theorem test_R193_H9 :
    (nextOf (exec (.wrCmd 0x1#64) (machine 16 0 []))).map (fun t => (t.regs.status, t.regs.cmd, t.pending)) =
      some (0x1001#64, 0x1#64, some 0x1#64) ∧
    (nextOf (exec (.wrCmd 0x3#64) ((machine 16 0 []).issue 0x1#64))).map (fun t => (t.pending, t.faults)) =
      some (some 0x1#64, [.hazard]) := by decide
/-- H12 and H11. -/
theorem test_H12_H11 :
    (nextOf (exec (.mrd 5) (machine 16 5 [0x41#8]))).map (·.observed) = some [.byte 5 0x41#8] ∧
    (nextOf (exec (.mrd 5) (machine 16 0 []))).map (·.faults) = some [.uninit 5] := by decide
/-- The top of memory, and the address after it (43_host_transactions.md R194, R195). -/
theorem test_mwr_top :
    (nextOf (exec (.mwr 15 0x41#8) (machine 16 15 [0x40#8]))).map (fun t => bytes t 14 2) =
      some [none, some 0x41#8] ∧
    refusalOf (exec (.mwr 16 0x41#8) (machine 16 0 [])) = some (.addressOutsideMemory 16) := by decide
/-- RS3: the region of the pending DECODE loses its values, the cell after it keeps its byte. -/
theorem test_RS3 :
    (nextOf (exec .rst (decoding (machine 16 0 (hiFrame ++ [0x77#8])) 0#64 8#64))).map (fun t =>
      (decide (t.regs = Regs.zero), t.pending, bytes t 7 2)) = some (true, none, [none, some 0x77#8]) := by decide
/-- RS5: an illegal pending word has no region. -/
theorem test_RS5 :
    (nextOf (exec .rst ((machine 16 0 [0x77#8]).issue 0x7#64))).map (fun t => bytes t 0 1) =
      some [some 0x77#8] := by decide
/-- R88: `encode o, f, src, len, dst, cap` begins with four operand writes, then the word. -/
theorem test_encode_expansion :
    (hostEncode 0x1#4 true 0x100#64 15#64 0x200#64 0x40#64)[4]? = some (.txn ⟨.wr, some 0, some 0x112⟩) := by
  decide
/-- withFetchWord: the next step from State.reset runs the word; XORMASK of nothing finishes OK (R244). -/
theorem test_withFetchWord :
    (nextOf (step (State.reset.withFetchWord 64 0x3))).map (·.regs.status) = some 0x3002#64 := by decide

/-! ### Witnesses: for every obligation with hypotheses, a case that meets them -/

theorem witness_DecodeInvertsEncode :
    (Instr.wr 0x3F#6 0#64).wellFormed 1 = true ∧ (Instr.mrd 0).wellFormed 1 = true ∧
    (Instr.mwr 0 0xFF#8).wellFormed 1 = true := by decide
theorem witness_EncodeInvertsDecode :
    decode (.command 0x1F2#64) = .ok (.encode 0xF#4 true) ∧
    decode (.bus ⟨.wr, some 0x3F, some (2 ^ 64 - 1)⟩) = .ok (.wr 0x3F#6 (BitVec.allOnes 64)) := by decide
theorem witness_CommandDispatchIsTheOpcodeMap : decodeCommand 0x212#64 = .error (.mustBeZero 2#4) := by decide
theorem witness_BusTuplesDecodeAsWritten :
    (0x3F#6 ≠ 0x00#6) ∧ 0x3F < 0x40 ∧ decodeBus ⟨.wr, some 0x3F, some 0⟩ = .ok (.wr 0x3F#6 0#64) ∧
    decodeBus ⟨.wr, some 0x40, some 0⟩ = .error (.noSuchRegister 0x40) := by decide
theorem witness_LengthDecoderBranches :
    ([] : List Byte).length = extSize 125#7 ∧ [0xFF#8, 0xFF#8].length = extSize 126#7 ∧
    (List.replicate 8 0xFF#8).length = extSize 127#7 := by decide
theorem witness_LengthEncoderBranches :
    125 < 2 ^ 64 ∧ (126 ≤ 65535 ∧ 65535 < 2 ^ 64) ∧ (65536 ≤ 2 ^ 64 - 1 ∧ 2 ^ 64 - 1 < 2 ^ 64) := by decide
theorem witness_LengthDecoderInvertsLengthEncoder : 2 ^ 64 - 1 < 2 ^ 64 := by decide
theorem witness_LengthEncodingIsShortest :
    [0x00#8, 0x05#8].length = extSize 126#7 ∧ 65536 ≤ 2 ^ 63 - 1 ∧ 2 ^ 63 - 1 < 2 ^ 63 := by decide
theorem witness_XorMaskIsBytewise : 4 < [0#8, 0#8, 0#8, 0#8, 0#8].length := by decide
theorem witness_ResetTransaction :
    (machine 16 0 []).pending = none ∧ ((machine 16 0 []).issue 0x1#64).pending = some 0x1#64 := by decide

/-- BUSY with a command pending. -/
def busyState : State := decoding (machine 16 0 hiFrame) 0#64 8#64

theorem witness_RegReadReturnsTheRegister :
    (machine 16 0 []).busy = false ∧ regNumOf .xorKey = 0x1A#6 ∧ regNameOf 0x3F#6 = none ∧
    busyState.busy = true ∧ 0x02#6 ≠ 0x01#6 := by decide
theorem witness_RegReadReturnsTheRegister_unmapped : ∀ n : RegName, regNumOf n ≠ 0x3F#6 := by
  intro n; cases n <;> decide
theorem witness_RegWriteFollowsTheAccessType :
    (0x01#6 ≠ 0x00#6) ∧ (machine 16 0 []).busy = false ∧ busyState.busy = true := by decide
theorem witness_CommandIssueWritesStatusAndPending :
    (machine 16 0 []).busy = false ∧ busyState.busy = true := by decide
theorem witness_MemReadReturnsTheByte :
    (machine 16 15 [0x41#8]).busy = false ∧ (machine 16 15 [0x41#8]).mem.read 15 = some 0x41#8 ∧
    (machine 16 0 []).mem.read 15 = none ∧ 15 < (machine 16 0 []).mem.size ∧ busyState.busy = true ∧
    15 < busyState.mem.size ∧ (machine 16 0 []).mem.size ≤ 16 := by decide
/-- Programs that hold a MemRead or a MemWrite at MEM_SIZE: as a transaction, in a copy, and as a parameter
that comes to it by a branch. -/
theorem witness_programs_outside_memory :
    let branching : HostProgram := fun _ obs =>
      match obs.length with | 0 => some ⟨.mrd, some 15, none⟩ | _ => some ⟨.mrd, some 16, none⟩
    HostOp.txn ⟨.mrd, some 16, none⟩ ∈ [hostRst, .txn ⟨.mrd, some 16, none⟩] ∧
    HostOp.txn ⟨.mwr, some 16, some (0#8).toNat⟩ ∈ [hostSb 16 0#8] ∧
    HostOp.copy 9 0 8 ∈ [HostOp.copy 9 0 8] ∧ 9 ≤ 16 ∧ 16 < 9 + 8 ∧
    branching 1 [.byte 15 0#8] = some ⟨.mrd, some 16, none⟩ ∧
    HostProgram.ofList [⟨.mwr, some 16, some (0#8).toNat⟩] 0 [] = some ⟨.mwr, some 16, some (0#8).toNat⟩ := by
  decide
theorem witness_MemWriteWritesOneCell :
    (machine 16 0 []).busy = false ∧ 15 < (machine 16 0 []).mem.size ∧ busyState.busy = true ∧
    15 < busyState.mem.size ∧ (machine 16 0 []).mem.size ≤ 16 := by decide
theorem witness_BusyTransactionsRecordHazard :
    busyState.busy = true ∧ (Instr.mwr 15 0#8).isTransaction = true ∧
    (Instr.mwr 15 0#8).wellFormed busyState.mem.size = true ∧ (Instr.mwr 15 0#8) ≠ .rd 0x01#6 ∧
    (Instr.mwr 15 0#8) ≠ .rst ∧ (Instr.rd 0x01#6).wellFormed busyState.mem.size = true := by decide

/-- D1's frame, whose region ends at MEM_SIZE (D18). -/
theorem witness_DecodeUnmasksAMaskedFrame :
    let s := decoding (machine 16 8 hiFrame) 8#64 8#64
    s.regs.decBase.toNat + s.regs.decAvail.toNat ≤ s.mem.size ∧ (unpack 0x81#8 0x82#8).mask = true ∧
    ([] : List Byte).length = extSize (unpack 0x81#8 0x82#8).len7 ∧
    [0xC9#8, 0xDB#8].length = payloadLength (unpack 0x81#8 0x82#8).len7 [] ∧
    2 + ([] : List Byte).length + 4 + [0xC9#8, 0xDB#8].length ≤ s.regs.decAvail.toNat ∧
    s.mem.holds s.regs.decBase.toNat
      ([0x81#8, 0x82#8] ++ [] ++ [0xA1#8, 0xB2#8, 0xC3#8, 0xD4#8] ++ [0xC9#8, 0xDB#8]) := by
  simp only [Memory.holds]; decide
/-- Header `01 03` without its payload's values. -/
theorem witness_DecodeAcceptsAnUnmaskedFrame :
    let s := decoding (machine 5 0 [0x01#8, 0x03#8]) 0#64 5#64
    s.regs.decBase.toNat + s.regs.decAvail.toNat ≤ s.mem.size ∧ (unpack 0x01#8 0x03#8).mask = false ∧
    ([] : List Byte).length = extSize (unpack 0x01#8 0x03#8).len7 ∧
    2 + ([] : List Byte).length + payloadLength (unpack 0x01#8 0x03#8).len7 [] ≤ s.regs.decAvail.toNat ∧
    s.mem.holds s.regs.decBase.toNat ([0x01#8, 0x03#8] ++ []) := by
  simp only [Memory.holds]; decide

/-- D13 and D4: RANGE by one cell, HDR at one byte. -/
theorem witness_DecodeReportsTheFirstFailingCheck :
    let r := decoding (machine 16 0 []) 9#64 8#64
    let h := decoding (machine 16 0 []) 0#64 1#64
    r.mem.size < r.regs.decBase.toNat + r.regs.decAvail.toNat ∧
    h.regs.decBase.toNat + h.regs.decAvail.toNat ≤ h.mem.size ∧ h.regs.decAvail.toNat < 2 := by decide
/-- D5: EXT, one byte short. -/
theorem witness_DecodeReportsTheFirstFailingCheck_ext :
    let s := decoding (machine 16 0 [0x81#8, 0xFE#8, 0x00#8]) 0#64 3#64
    s.regs.decBase.toNat + s.regs.decAvail.toNat ≤ s.mem.size ∧ 2 ≤ s.regs.decAvail.toNat ∧
    s.mem.holds s.regs.decBase.toNat [0x81#8, 0xFE#8] ∧
    s.regs.decAvail.toNat < 2 + extSize (unpack 0x81#8 0xFE#8).len7 := by
  simp only [Memory.holds]; decide
/-- KEY, one byte short (as D6). -/
theorem witness_DecodeReportsTheFirstFailingCheck_key :
    let s := decoding (machine 16 0 [0x81#8, 0xFE#8, 0x00#8, 0x7E#8]) 0#64 7#64
    s.mem.holds s.regs.decBase.toNat [0x81#8, 0xFE#8] ∧
    2 + extSize (unpack 0x81#8 0xFE#8).len7 ≤ s.regs.decAvail.toNat ∧
    [0x00#8, 0x7E#8].length = extSize (unpack 0x81#8 0xFE#8).len7 ∧
    s.mem.holds (s.regs.decBase.toNat + 2) [0x00#8, 0x7E#8] ∧
    s.regs.decAvail.toNat < 2 + [0x00#8, 0x7E#8].length + 4 ∧ (unpack 0x81#8 0xFE#8).mask = true := by
  simp only [Memory.holds]; decide
/-- D20: PAYLOAD of a masked frame, one byte short. -/
theorem witness_DecodeReportsTheFirstFailingCheck_payload :
    let s := decoding (machine 16 0 hiFrame) 0#64 7#64
    s.regs.decBase.toNat + s.regs.decAvail.toNat ≤ s.mem.size ∧ 2 ≤ s.regs.decAvail.toNat ∧
    s.mem.holds s.regs.decBase.toNat [0x81#8, 0x82#8] ∧
    ([] : List Byte).length = extSize (unpack 0x81#8 0x82#8).len7 ∧
    s.mem.holds (s.regs.decBase.toNat + 2) [] ∧ 2 + 0 + 4 ≤ s.regs.decAvail.toNat ∧
    s.mem.holds (s.regs.decBase.toNat + 2 + 0) [0xA1#8, 0xB2#8, 0xC3#8, 0xD4#8] ∧
    s.regs.decAvail.toNat - (2 + 0 + 4) < payloadLength (unpack 0x81#8 0x82#8).len7 [] := by
  simp only [Memory.holds]; decide
/-- PAYLOAD of an unmasked frame, one byte short. -/
theorem witness_DecodeReportsTheFirstFailingCheck_unmasked :
    let s := decoding (machine 16 0 [0x01#8, 0x03#8]) 0#64 4#64
    s.mem.holds s.regs.decBase.toNat [0x01#8, 0x03#8] ∧ (unpack 0x01#8 0x03#8).mask = false ∧
    2 + extSize (unpack 0x01#8 0x03#8).len7 ≤ s.regs.decAvail.toNat ∧
    s.regs.decAvail.toNat - (2 + 0) < payloadLength (unpack 0x01#8 0x03#8).len7 [] := by
  simp only [Memory.holds]; decide

theorem witness_DecodeRecordsTheFirstEmptyCell_header :
    let s := decoding (machine 16 0 []) 14#64 2#64
    let u := decoding (machine 16 14 [0x81#8]) 14#64 2#64
    s.faults = [] ∧ s.regs.decBase.toNat + s.regs.decAvail.toNat ≤ s.mem.size ∧ 2 ≤ s.regs.decAvail.toNat ∧
    s.mem.read s.regs.decBase.toNat = none ∧ u.mem.read u.regs.decBase.toNat = some 0x81#8 ∧
    u.mem.read (u.regs.decBase.toNat + 1) = none := by decide
theorem witness_DecodeRecordsTheFirstEmptyCell_extension :
    let s := decoding (machine 16 0 [0x81#8, 0xFE#8, 0x00#8]) 0#64 4#64
    s.mem.holds s.regs.decBase.toNat [0x81#8, 0xFE#8] ∧
    2 + extSize (unpack 0x81#8 0xFE#8).len7 ≤ s.regs.decAvail.toNat ∧
    [0x00#8].length < extSize (unpack 0x81#8 0xFE#8).len7 ∧ s.mem.holds (s.regs.decBase.toNat + 2) [0x00#8] ∧
    s.mem.read (s.regs.decBase.toNat + 2 + [0x00#8].length) = none := by
  simp only [Memory.holds]; decide
/-- The last key byte has no value. -/
theorem witness_DecodeRecordsTheFirstEmptyCell_key :
    let s := decoding (machine 16 0 [0x81#8, 0x82#8, 1#8, 2#8, 3#8]) 0#64 8#64
    s.mem.holds s.regs.decBase.toNat [0x81#8, 0x82#8] ∧ (unpack 0x81#8 0x82#8).mask = true ∧
    ([] : List Byte).length = extSize (unpack 0x81#8 0x82#8).len7 ∧ s.mem.holds (s.regs.decBase.toNat + 2) [] ∧
    2 + 0 + 4 ≤ s.regs.decAvail.toNat ∧ [1#8, 2#8, 3#8].length < 4 ∧
    s.mem.holds (s.regs.decBase.toNat + 2 + 0) [1#8, 2#8, 3#8] ∧
    s.mem.read (s.regs.decBase.toNat + 2 + 0 + [1#8, 2#8, 3#8].length) = none := by
  simp only [Memory.holds]; decide
/-- D15, with the first payload byte written. -/
theorem witness_DecodeRecordsTheFirstEmptyCell_payload :
    let s := decoding (machine 16 0 [0x81#8, 0x82#8, 1#8, 2#8, 3#8, 4#8, 5#8]) 0#64 8#64
    s.mem.holds s.regs.decBase.toNat [0x81#8, 0x82#8] ∧
    s.mem.holds (s.regs.decBase.toNat + 2 + 0) [1#8, 2#8, 3#8, 4#8] ∧
    2 + 0 + 4 + payloadLength (unpack 0x81#8 0x82#8).len7 [] ≤ s.regs.decAvail.toNat ∧
    [5#8].length < payloadLength (unpack 0x81#8 0x82#8).len7 [] ∧
    s.mem.holds (s.regs.decBase.toNat + 2 + 0 + 4) [5#8] ∧
    s.mem.read (s.regs.decBase.toNat + 2 + 0 + 4 + [5#8].length) = none := by
  simp only [Memory.holds]; decide

/-- A region that ends at MEM_SIZE, and X7's key on it. -/
def maskable : State := masking (machine 16 14 [0x61#8, 0x62#8]) 14#64 2#64 0xDEADBEEF#64

theorem witness_XormaskMasksItsRegion :
    maskable.regs.xorBase.toNat + [0x61#8, 0x62#8].length ≤ maskable.mem.size ∧
    [0x61#8, 0x62#8].length = maskable.regs.xorLen.toNat ∧
    maskable.mem.holds maskable.regs.xorBase.toNat [0x61#8, 0x62#8] := by
  simp only [Memory.holds]; decide
/-- The hypotheses are those of XormaskMasksItsRegion. -/
theorem witness_XormaskTwiceRestoresMemory :
    maskable.regs.xorBase.toNat + [0x61#8, 0x62#8].length ≤ maskable.mem.size ∧
    [0x61#8, 0x62#8].length = maskable.regs.xorLen.toNat ∧
    maskable.mem.holds maskable.regs.xorBase.toNat [0x61#8, 0x62#8] := by
  simp only [Memory.holds]; decide
/-- X6 and X8. -/
theorem witness_XormaskReportsRangeAndEmptyCells :
    let r := masking (machine 0x40 0 []) 0x3F#64 2#64 0#64
    let u := masking (machine 0x40 0x10 [0x55#8]) 0x10#64 2#64 0x01020304#64
    r.mem.size < r.regs.xorBase.toNat + r.regs.xorLen.toNat ∧
    u.regs.xorBase.toNat + u.regs.xorLen.toNat ≤ u.mem.size ∧ u.faults = [] ∧
    [0x55#8].length < u.regs.xorLen.toNat ∧ u.mem.holds u.regs.xorBase.toNat [0x55#8] ∧
    u.mem.read (u.regs.xorBase.toNat + [0x55#8].length) = none := by
  simp only [Memory.holds]; decide

/-- A source next to its destination frame, in a memory that ends with the source (E8b). -/
def encodable : State := encoding (machine 6 4 [1#8, 2#8]) 4#64 2#64 0#64 4#64 0x112#64

theorem witness_EncodeBuildsTheFrame :
    [1#8, 2#8].length = encodable.regs.encLen.toNat ∧
    encodable.regs.encSrc.toNat + [1#8, 2#8].length ≤ encodable.mem.size ∧
    encodable.regs.encDst.toNat + encodable.regs.encCap.toNat ≤ encodable.mem.size ∧
    2 + (encodeLength [1#8, 2#8].length).2.length + [1#8, 2#8].length ≤ encodable.regs.encCap.toNat ∧
    encodable.regs.encDst.toNat + (2 + (encodeLength [1#8, 2#8].length).2.length + [1#8, 2#8].length) ≤
      encodable.regs.encSrc.toNat ∧
    encodable.mem.holds encodable.regs.encSrc.toNat [1#8, 2#8] := by
  simp only [Memory.holds]; decide
/-- E9a, E7a and E8a. -/
theorem witness_EncodeReportsTheFirstFailingCheck :
    let r := encoding (machine 0x40 0 []) 0x3F#64 2#64 0#64 8#64 0x112#64
    let c := encoding (machine 0x400 0 []) 0x100#64 3#64 0x200#64 4#64 0x112#64
    let o := encoding (machine 0x40 0 []) 0x10#64 4#64 0x0E#64 6#64 0x112#64
    r.mem.size < r.regs.encSrc.toNat + r.regs.encLen.toNat ∧
    c.regs.encSrc.toNat + c.regs.encLen.toNat ≤ c.mem.size ∧
    c.regs.encDst.toNat + c.regs.encCap.toNat ≤ c.mem.size ∧ c.regs.encCap.toNat < 2 + 0 + c.regs.encLen.toNat ∧
    o.regs.encDst.toNat + o.regs.encCap.toNat ≤ o.mem.size ∧ 2 + 0 + o.regs.encLen.toNat ≤ o.regs.encCap.toNat ∧
    0 < o.regs.encLen.toNat ∧ o.regs.encSrc.toNat < o.regs.encDst.toNat + (2 + 0 + o.regs.encLen.toNat) ∧
    o.regs.encDst.toNat < o.regs.encSrc.toNat + o.regs.encLen.toNat := by decide
/-- E11, on a small memory: the second source cell has no value. -/
theorem witness_EncodeRecordsTheFirstEmptyCell :
    let s := encoding (machine 16 8 [1#8]) 8#64 2#64 0#64 4#64 0x112#64
    s.faults = [] ∧ s.regs.encSrc.toNat + s.regs.encLen.toNat ≤ s.mem.size ∧
    s.regs.encDst.toNat + s.regs.encCap.toNat ≤ s.mem.size ∧ 2 + 0 + s.regs.encLen.toNat ≤ s.regs.encCap.toNat ∧
    s.regs.encDst.toNat + (2 + 0 + s.regs.encLen.toNat) ≤ s.regs.encSrc.toNat ∧
    [1#8].length < s.regs.encLen.toNat ∧ s.mem.holds s.regs.encSrc.toNat [1#8] ∧
    s.mem.read (s.regs.encSrc.toNat + [1#8].length) = none := by
  simp only [Memory.holds]; decide

/-- `t` with DEC_BASE and DEC_AVAIL set. -/
def pointed (t : State) (b n : Word) : State := { t with regs := { t.regs with decBase := b, decAvail := n } }

/-- ENCODE from `encodable` succeeds; a DECODE of exactly its frame's four bytes is pointed at it. -/
theorem witness_EncodedFrameDecodes :
    (nextOf (exec (.encode 0x1#4 true) encodable)).map (fun t =>
      ((statusFields t.regs.status).err, t.pending,
        let s' := pointed t 0#64 4#64
        decide (s'.mem = t.mem ∧ s'.regs.decBase.toNat = encodable.regs.encDst.toNat ∧
          2 + (encodeLength [1#8, 2#8].length).2.length + [1#8, 2#8].length ≤ s'.regs.decAvail.toNat ∧
          encodable.regs.encDst.toNat + s'.regs.decAvail.toNat ≤ s'.mem.size))) =
      some (0#4, none, true) ∧
    encodable.pending ≠ none ∧ [1#8, 2#8].length = encodable.regs.encLen.toNat ∧
    encodable.mem.holds encodable.regs.encSrc.toNat [1#8, 2#8] := by
  simp only [Memory.holds]; decide
/-- The client frame of D1 before masking, with XORMASK's registers on its payload. -/
theorem witness_MaskedClientFrameRoundTrips :
    let s := masking (machine 8 0 [0x81#8, 0x82#8, 0xA1#8, 0xB2#8, 0xC3#8, 0xD4#8, 0x68#8, 0x69#8]) 6#64 2#64
      0xA1B2C3D4#64
    let p := [0x68#8, 0x69#8]
    p.length < 2 ^ 64 ∧ 0 + (2 + (encodeLength p.length).2.length + 4) + p.length ≤ s.mem.size ∧
    s.mem.holds 0 ([packByte0 true 0x1#4, 1#1 ++ (encodeLength p.length).1] ++ (encodeLength p.length).2 ++
      [0xA1#8, 0xB2#8, 0xC3#8, 0xD4#8] ++ p) ∧
    s.regs.xorBase.toNat = 0 + (2 + (encodeLength p.length).2.length + 4) ∧
    s.regs.xorLen.toNat = p.length ∧
    s.regs.xorKey = keyRegister ⟨0xA1#8, 0xB2#8, 0xC3#8, 0xD4#8⟩ ∧
    (nextOf (exec .xormask s)).map (fun t =>
      let s' := pointed t 0#64 8#64
      decide (s'.mem = t.mem ∧ s'.regs.decBase.toNat = 0 ∧
        2 + (encodeLength p.length).2.length + 4 + p.length ≤ s'.regs.decAvail.toNat ∧
        0 + s'.regs.decAvail.toNat ≤ s'.mem.size)) = some true := by
  simp only [Memory.holds]; decide

/-- ENGINE's turn: with no host program, and with one and the schedule naming ENGINE. -/
theorem witness_StepRunsThePendingCommand :
    busyState.mover = some .engine ∧ busyState.pending = some 0x1#64 ∧
    State.mover { busyState with host := [hostRd 0x01#6], schedule := [.engine] } = some .engine ∧
    decodeCommand 0x1#64 = .ok .decode ∧ decodeCommand 0x4#64 = .error (.reservedOp 4#4) := by decide
/-- HOST's turn: idle, and while BUSY by the schedule; a tuple that decodes and one that does not. -/
theorem witness_StepRunsTheNextTransaction :
    State.mover { machine 16 0 [] with host := [hostRst] } = some .host ∧
    State.nextTransaction { machine 16 0 [] with host := [hostRst] } = some (⟨.rst, none, none⟩, []) ∧
    decodeBus ⟨.rst, none, none⟩ = .ok .rst ∧
    decodeBus ⟨.rst, some 0, none⟩ = .error .malformedTuple := by decide
theorem witness_EitherEnabledAgentMayMove :
    let both : State := { busyState with host := [hostRd 0x01#6] }
    busyState.engineEnabled = true ∧ busyState.hostEnabled = false ∧
    (machine 16 0 []).engineEnabled = false ∧ State.hostEnabled { machine 16 0 [] with host := [hostRst] } = true ∧
    both.engineEnabled = true ∧ both.hostEnabled = true := by decide
theorem witness_FaultedStateIsQuiescent : (busyState.recordFault .hazard).faults ≠ [] := by decide
/-- Both ends of ENGINE's step are reached: D1 finishes, D14 records UNINIT. -/
theorem witness_EngineStepFinishesOrRecordsUninit :
    busyState.mover = some .engine ∧ busyState.pending = some 0x1#64 ∧
    (nextOf (step busyState)).map (·.faults) = some [] ∧
    (nextOf (step (decoding (machine 16 8 [0x81#8, 0x82#8]) 8#64 8#64))).map (·.faults) =
      some [.uninit 0x0A] := by decide
/-- A DECODE, an ENCODE, an XORMASK and an illegal word that finish with an error. -/
theorem witness_FailedCommandIsPrecise :
    [decoding (machine 16 0 []) 9#64 8#64, encoding (machine 16 0 []) 15#64 2#64 0#64 8#64 0x112#64,
      masking (machine 16 0 []) 15#64 2#64 0#64, (machine 16 0 []).issue 0x4#64].map (fun s =>
        (s.mover, (nextOf (step s)).map fun t => (t.faults, (statusFields t.regs.status).err))) =
    [(some .engine, some ([], 2#4)), (some .engine, some ([], 2#4)), (some .engine, some ([], 2#4)),
      (some .engine, some ([], 5#4))] := by decide
theorem witness_CommandWritesOnlyItsRegionOfEffect :
    busyState.mover = some .engine ∧ busyState.pending = some 0x1#64 ∧
    (nextOf (step busyState)).isSome = true := by decide
/-- A register changed by ENGINE, by a WR, by a command issue, and by a reset. -/
theorem witness_RegistersAreWrittenOnlyByTheirWriters :
    let host (h : HostOp) : Option State := nextOf (step { machine 16 0 [] with host := [h] })
    (nextOf (step busyState)).map (fun t => decide (t.regs.get .decPlen ≠ busyState.regs.get .decPlen)) =
      some true ∧
    (host (hostWr 0x1A#6 1#64)).map (·.regs.get .xorKey) = some 1#64 ∧
    (host hostCmdDecode).map (·.regs.get .status) = some 0x1001#64 ∧
    (nextOf (step { busyState with host := [hostRst], schedule := [.host] })).map (·.regs.get .decAvail) =
      some 0#64 := by decide
theorem witness_OperandsAreStableWhilePending :
    let s : State := { busyState with host := [hostRd 0x01#6], schedule := [.host] }
    s.pending ≠ none ∧ s.busy = true ∧ s.mover = some .host ∧
    s.nextTransaction = some (⟨.rd, some 1, none⟩, []) ∧ (nextOf (step s)).isSome = true ∧
    decodeBus ⟨.rd, some 1, none⟩ = .ok (.rd 0x01#6) := by decide
theorem witness_FinalStateIsIdle : (machine 16 0 [0x41#8]).final = true := by decide
theorem witness_WaitPollsStatus :
    let s : State := { busyState with host := [.wait, hostRst], schedule := [.host] }
    s.faults = [] ∧ s.host = .wait :: [hostRst] ∧ s.mover = some .host := by decide
theorem witness_CopyCopiesBytes :
    let s : State := { machine 4 0 [0x68#8, 0x69#8] with host := [.copy 0 2 2, hostRst] }
    s.faults = [] ∧ s.pending = none ∧ s.busy = false ∧ s.host = .copy 0 2 [0x68#8, 0x69#8].length :: [hostRst] ∧
    0 + [0x68#8, 0x69#8].length ≤ s.mem.size ∧ 2 + [0x68#8, 0x69#8].length ≤ s.mem.size ∧
    0 + [0x68#8, 0x69#8].length ≤ 2 ∧ s.mem.holds 0 [0x68#8, 0x69#8] := by
  simp only [Memory.holds]; decide
/-- Three polls, ENGINE, and the poll that ends the loop. -/
theorem witness_WaitEndsAfterTheEngineStep :
    let s : State := { busyState with host := [.wait, hostRst], schedule := [.host, .host, .host, .engine] }
    s.faults = [] ∧ s.pending ≠ none ∧ s.busy = true ∧ s.host = .wait :: [hostRst] ∧
    s.schedule = List.replicate 3 .host ++ .engine :: [] ∧
    (nextOf (Sys2Proof.core.run 5 s)).map (·.host) = some [hostRst] := by decide
theorem witness_StepKeepsTheMemoryForm :
    busyState.mem.wf = true ∧ (nextOf (step busyState)).isSome = true := by decide

/-- A state that meets the invariant, from which a step answers a next state. -/
theorem witness_StepKeepsTheInvariant :
    (State.powerOn 1).Inv ∧ (nextOf (step (State.powerOn 1))).isSome = true := by
  refine ⟨⟨by decide, by decide, by decide, by decide, ?_, by decide, by decide, by decide, by decide,
    by decide, ?_, by decide, by decide⟩, by decide⟩
  · intro r; cases r <;> decide
  · intro w h; cases h
theorem witness_PowerOnMeetsTheInvariant : 1 ≤ 2 ^ 64 ∧ 2 ^ 64 ≤ 2 ^ 64 := by decide

/-! ### Runs of host programs -/

theorem witness_RegisterTableIsAsWritten : regNumOf .xorKey = 0x1A#6 ∧ ∀ n, regNumOf n ≠ 0x1B#6 := by
  refine ⟨rfl, fun n => ?_⟩
  cases n <;> decide

/-- BUSY with a command pending, and nothing sent. -/
def busyPlay : Play := { state := busyState, sent := 0 }

/-- A read of the last byte, then one at MEM_SIZE. -/
def outsideProgram : HostProgram := .ofList [⟨.mrd, some 15, none⟩, ⟨.mrd, some 16, none⟩]

/-- Each agent named and moving, the other one moving when the named one cannot, and none. -/
theorem witness_PlayTakesTheEnabledAgentsStep :
    let idle : Play := { state := machine 16 15 [0x41#8], sent := 0 }
    busyPlay.mover .wait .host = some .host ∧ busyPlay.mover .wait .engine = some .engine ∧
    busyPlay.enabled (.ofList []) .host = false ∧ busyPlay.mover (.ofList []) .host = some .engine ∧
    idle.mover outsideProgram .engine = some .host ∧
    outsideProgram 0 [] = some ⟨.mrd, some 15, none⟩ ∧ decodeBus ⟨.mrd, some 15, none⟩ = .ok (.mrd 15) ∧
    (nextOf (exec (.mrd 15) idle.state)).isSome = true ∧
    outsideProgram 1 [] = some ⟨.mrd, some 16, none⟩ ∧ decodeBus ⟨.mrd, some 16, none⟩ = .ok (.mrd 16) ∧
    refusalOf (exec (.mrd 16) idle.state) = some (.addressOutsideMemory 16) ∧
    busyPlay.state.pending = some 0x1#64 ∧ decodeCommand 0x1#64 = .ok .decode ∧
    (nextOf (exec .decode busyPlay.state)).isSome = true ∧ idle.mover (.ofList []) .host = none ∧
    idle.final (.ofList []) = true ∧ (busyState.recordFault .hazard).faults ≠ [] := by decide

/-- The run of `wait` in which the host polls twice, ENGINE moves, and the third poll ends the loop. -/
theorem test_play_of_wait :
    let σ : Schedule := fun n => match n with | 0 => .host | 1 => .host | _ => .engine
    ((List.range 6).map fun n => (play .wait σ busyPlay n).sent) = [0, 1, 2, 2, 3, 3] ∧
    (play .wait σ busyPlay 4).final .wait = true := by decide

/-- An old STATUS read with BUSY 0 does not end a `wait` that begins while BUSY (30_encoding.md R88). -/
theorem test_wait_reads_once :
    let old : Play := { state := busyState.observe (.register 0x01#6 0x2#64), sent := 0 }
    old.mover .wait .host = some .host ∧ (play .wait (fun _ => .engine) old 1).final .wait = false ∧
    (play .wait (fun _ => .engine) old 2).final .wait = true ∧
    (play .wait (fun _ => .engine) old 2).state.observed =
      [.register 0x01#6 0x2#64, .register 0x01#6 0x1002#64] := by decide

theorem witness_EveryPlayIsARunOfTheMachine :
    HostProgram.wait.wellFormed busyPlay.state.mem.size ∧
    ∀ m, m < 6 → (play .wait (fun _ => .host) busyPlay m).state.faults = [] :=
  ⟨HostProgram.wellFormed_wait _, by decide⟩

theorem witness_PendingCommandEndsUnderFairness :
    weaklyFair .wait (fun _ => .engine) busyPlay ∧ busyPlay.state.pending ≠ none ∧
    busyPlay.state.busy = true ∧ busyPlay.state.faults = [] :=
  ⟨weaklyFair_of_ends 2 (by intro b; cases b <;> decide), by decide, by decide, by decide⟩

/-- `wait` from a pending DECODE, and from one whose second header cell holds no value. -/
theorem witness_WaitDoesNotHang :
    let empty : Play := { state := decoding (machine 16 0 [0x81#8]) 0#64 8#64, sent := 0 }
    (weaklyFair .wait (fun _ => .engine) busyPlay ∧ (play .wait (fun _ => .engine) busyPlay 2).final .wait = true) ∧
    weaklyFair .wait (fun _ => .engine) empty ∧
    (play .wait (fun _ => .engine) empty 1).state.faults = [.uninit 1] :=
  ⟨⟨weaklyFair_of_ends 2 (by intro b; cases b <;> decide), by decide⟩,
    weaklyFair_of_ends 1 (by intro b; cases b <;> decide), by decide⟩

/-- A command is pending and the one transaction is a STATUS read: the run is final after two steps and not
before. -/
theorem witness_FiniteProgramEnds :
    let P : HostProgram := .ofList [⟨.rd, some 1, none⟩]
    P.wellFormed busyPlay.state.mem.size ∧ (∀ k obs, 1 ≤ k → P k obs = none) ∧
    (play P (fun _ => .host) busyPlay 1).final P = false ∧ (play P (fun _ => .host) busyPlay 2).final P = true := by
  refine ⟨HostProgram.wellFormed_ofList (by decide), fun k _ hk => ?_, by decide, by decide⟩
  exact List.getElem?_eq_none hk

end Sys2Proof.Tests
end

section
/-! PROOFS. The values of the packed registers: STATUS, DEC_HDR and the key registers. -/

namespace Sys2Proof.Machine

/-! ### A packed word as a sum of its fields -/

theorem toNat_append_eq_add {m n : Nat} (x : BitVec m) (y : BitVec n) :
    (x ++ y).toNat = x.toNat * 2 ^ n + y.toNat := by
  rw [BitVec.toNat_append, ← Nat.shiftLeft_add_eq_or_of_lt y.isLt, Nat.shiftLeft_eq]

theorem statusWord_toNat (f : StatusFields) :
    (statusWord f).toNat = f.busy.toNat + f.done.toNat * 2 + f.err.toNat * 2 ^ 4 + f.stage.toNat * 2 ^ 8 +
      f.op.toNat * 2 ^ 12 := by
  simp only [statusWord, toNat_append_eq_add, BitVec.toNat_ofBool, BitVec.toNat_zero]
  omega

theorem decHdrWord_toNat (f : HeaderFlags) (h0 h1 : Byte) :
    (decHdrWord f h0 h1).toNat = h1.toNat + h0.toNat * 2 ^ 8 + f.rsvNz.toNat * 2 ^ 16 +
      f.opcUnsup.toNat * 2 ^ 17 + f.malformed.toNat * 2 ^ 18 := by
  simp only [decHdrWord, toNat_append_eq_add, BitVec.toNat_ofBool, BitVec.toNat_zero]
  omega

theorem keyRegister_toNat (key : Key) :
    (keyRegister key).toNat =
      key.k0.toNat * 2 ^ 24 + key.k1.toNat * 2 ^ 16 + key.k2.toNat * 2 ^ 8 + key.k3.toNat := by
  simp only [keyRegister, keyWord, toNat_append_eq_add, BitVec.toNat_zero]
  omega

/-! ### A key and its register -/

/-- Byte `i` of a register, as a number. -/
theorem toNat_extractByte (v : Word) (i : Nat) : (v.extractLsb' i 8).toNat = v.toNat / 2 ^ i % 2 ^ 8 := by
  rw [BitVec.extractLsb'_toNat, Nat.shiftRight_eq_div_pow]

theorem keyOfRegister_keyRegister (key : Key) : keyOfRegister (keyRegister key) = key := by
  obtain ⟨k0, k1, k2, k3⟩ := key
  have hb0 := k0.isLt
  have hb1 := k1.isLt
  have hb2 := k2.isLt
  have hb3 := k3.isLt
  simp only [keyOfRegister, Key.mk.injEq]
  refine ⟨?_, ?_, ?_, ?_⟩
  all_goals
    apply BitVec.eq_of_toNat_eq
    simp only [toNat_extractByte, keyRegister_toNat]
    omega

theorem keyOfRegister_and_implemented (v : Word) :
    keyOfRegister (v &&& implementedBits .xorKey) = keyOfRegister v := by
  have hmask (i : Nat) (hi : i ∈ [0, 8, 16, 24]) :
      (implementedBits .xorKey).extractLsb' i 8 = BitVec.allOnes 8 := by
    revert hi; revert i; decide
  simp [keyOfRegister, BitVec.extractLsb'_and, hmask, -BitVec.reduceAllOnes]

/-! ### The bits a packed register does not implement -/

theorem statusWord_implemented (f : StatusFields) : statusWord f &&& ~~~implementedBits .status = 0#64 := by
  have hmask : ~~~implementedBits .status =
      BitVec.allOnes 48 ++ 0#4 ++ 1#1 ++ 0#3 ++ 0#4 ++ BitVec.allOnes 2 ++ 0#1 ++ 0#1 := by decide
  rw [hmask, statusWord]
  repeat rw [BitVec.and_append]
  simp

theorem decHdrWord_implemented (f : HeaderFlags) (h0 h1 : Byte) :
    decHdrWord f h0 h1 &&& ~~~implementedBits .decHdr = 0#64 := by
  have hmask : ~~~implementedBits .decHdr =
      BitVec.allOnes 45 ++ 0#1 ++ 0#1 ++ 0#1 ++ 0#8 ++ 0#8 := by decide
  rw [hmask, decHdrWord]
  repeat rw [BitVec.and_append]
  simp

theorem keyRegister_implemented (key : Key) : keyRegister key &&& ~~~implementedBits .decKey = 0#64 := by
  have hmask : ~~~implementedBits .decKey = BitVec.allOnes 32 ++ 0#32 := by decide
  rw [hmask, keyRegister]
  repeat rw [BitVec.and_append]
  simp

/-! ### The obligations about packed words -/

/-- Settles O17: the fields of STATUS are appended at the table's positions. -/
theorem statusWordLayout : Obligations.StatusWordLayout := statusWord_toNat

/-- Settles O8: the flags stand above the two header bytes. -/
theorem decHdrHoldsHeaderAndFlags : Obligations.DecHdrHoldsHeaderAndFlags := by
  intro h0 h1 h rsvNz opcUnsup
  have hop : (h.opc != 1#4) = opcUnsup := by simp [opcUnsup, bne, decide_not, beq_eq_decide]
  rw [decHdrWord_toNat]
  simp only [headerFlags, hop]
  rfl

/-- Settles O16: both registers hold `k0` in bits 31:24 down to `k3` in bits 7:0. -/
theorem keyPackingAgrees : Obligations.KeyPackingAgrees := fun key v =>
  ⟨keyRegister_toNat key, keyOfRegister_keyRegister key, keyOfRegister_and_implemented v⟩

end Sys2Proof.Machine
end

section
/-! PROOFS. The register table, and what holds of the invariant's clauses at power-on. -/

namespace Sys2Proof.Machine

theorem regNameOf_eq_none_iff (r : RegNum) : regNameOf r = none ↔ ∀ n, regNumOf n ≠ r := by
  constructor
  · rintro h n rfl
    simp at h
  · intro h
    by_contra hne
    obtain ⟨n, hn⟩ := Option.ne_none_iff_exists'.1 hne
    exact h n (regNumOf_of_regNameOf hn)

theorem regNameOf_eq_none_iff_range (r : RegNum) : regNameOf r = none ↔
    (0x02 ≤ r.toNat ∧ r.toNat ≤ 0x07) ∨ r.toNat = 0x0F ∨ (0x15 ≤ r.toNat ∧ r.toNat ≤ 0x17) ∨
      0x1B ≤ r.toNat := by
  revert r; decide

/-- Settles O55: the table's columns row by row, the unmapped numbers by the decoder of register numbers. -/
theorem registerTableIsAsWritten : Obligations.RegisterTableIsAsWritten := by
  unfold Obligations.RegisterTableIsAsWritten
  intro table
  refine ⟨by decide, fun n => ?_, fun g => rfl, fun r => ?_⟩
  · cases n <;> decide
  · exact (regNameOf_eq_none_iff r).symm.trans (regNameOf_eq_none_iff_range r)

theorem Regs.readNumber_zero (r : RegNum) : Regs.zero.readNumber r = 0#64 := by
  unfold Regs.readNumber
  split <;> simp

theorem Config.memSize_bounds : 1 ≤ Config.memSize ∧ Config.memSize ≤ 2 ^ 64 := by
  unfold Config.memSize
  omega

theorem State.busy_of_zero {s : State} (h : s.regs = Regs.zero) : s.busy = false := by
  rw [State.busy, h]; decide

/-- Settles O18: power-on zeroes the registers and lists no cell. -/
theorem powerOnState : Obligations.PowerOnState :=
  ⟨fun _ => ⟨Regs.get_zero, Regs.readNumber_zero, State.busy_of_zero rfl, rfl, rfl, rfl, fun _ => rfl⟩,
    Config.memSize, rfl, Config.memSize_bounds⟩

end Sys2Proof.Machine
end

section
/-! PROOFS. Whose turn it is, and everything ENGINE's step can leave. -/

namespace Sys2Proof.Machine

/-! ### Whose turn it is -/

theorem State.engineEnabled_iff (s : State) : s.engineEnabled = true ↔ s.pending ≠ none ∧ s.faults = [] := by
  simp [State.engineEnabled, Option.isSome_iff_ne_none]

theorem State.hostEnabled_iff (s : State) :
    s.hostEnabled = true ↔ s.nextTransaction ≠ none ∧ s.faults = [] := by
  simp [State.hostEnabled, Option.isSome_iff_ne_none]

theorem State.mover_of_engine_only {s : State} (he : s.engineEnabled = true) (hh : s.hostEnabled = false) :
    s.mover = some .engine := by
  simp [State.mover, he, hh]

theorem State.mover_of_host_only {s : State} (he : s.engineEnabled = false) (hh : s.hostEnabled = true) :
    s.mover = some .host := by
  simp [State.mover, he, hh]

theorem State.mover_of_both {s : State} (he : s.engineEnabled = true) (hh : s.hostEnabled = true) :
    s.mover = some s.choice := by
  simp [State.mover, he, hh]

/-- What the host sends next depends on its program, BUSY and the memory alone. -/
theorem fetchHost_congr {s t : State} (hbusy : t.busy = s.busy) (hmem : t.mem = s.mem) (p : List HostOp) :
    fetchHost t p = fetchHost s p := by
  induction p with
  | nil => rfl
  | cons op rest ih =>
    cases op with
    | txn => rfl
    | wait => simp only [fetchHost, hbusy]
    | copy src dst n =>
      cases n with
      | zero => exact ih
      | succ n => simp only [fetchHost, hmem]

theorem State.hostEnabled_reschedule (s : State) (l : List Agent) :
    State.hostEnabled { s with schedule := l } = s.hostEnabled := by
  have hnext : State.nextTransaction { s with schedule := l } = s.nextTransaction :=
    fetchHost_congr (s := s) (t := { s with schedule := l }) rfl rfl s.host
  simp only [State.hostEnabled, hnext]

/-- Settles O40: the schedule's head is the choice where both agents are enabled. -/
theorem eitherEnabledAgentMayMove : Obligations.EitherEnabledAgentMayMove := fun s =>
  ⟨s.engineEnabled_iff, s.hostEnabled_iff, State.mover_of_engine_only, State.mover_of_host_only,
    fun he hh a later => State.mover_of_both (s := { s with schedule := a :: later }) he
      ((s.hostEnabled_reschedule _).trans hh)⟩

/-- On ENGINE's turn no fault is recorded and the step is ENGINE's. -/
theorem step_of_engine_turn {s : State} {w : Word} (hm : s.mover = some .engine) (hp : s.pending = some w) :
    s.faults = [] ∧ step s = engineStep w s.takeTurn := by
  have hf : s.faults = [] := by
    by_contra hne
    have he : s.engineEnabled = false := by simp [State.engineEnabled, hne]
    have hh : s.hostEnabled = false := by simp [State.hostEnabled, hne]
    simp [State.mover, he, hh] at hm
  exact ⟨hf, by simp [step, hf, hm, hp]⟩

theorem State.badCommand_eq_ended (s : State) :
    s.badCommand = s.ended { s.regs with status := s.finishedStatus 5#4 0#3 } s.mem := rfl

theorem State.takeTurn_finishedStatus (s : State) (e : BitVec 4) (g : BitVec 3) :
    s.takeTurn.finishedStatus e g = s.finishedStatus e g := by
  simp [State.finishedStatus]

/-- Settles O38: ENGINE's turn is `engineStep`, whose two arms are the two clauses. -/
theorem stepRunsThePendingCommand : Obligations.StepRunsThePendingCommand := by
  intro s w hm hp
  obtain ⟨-, hstep⟩ := step_of_engine_turn hm hp
  refine ⟨s.takeTurn_eq, fun i hi => ?_, fun e he => ?_⟩
  · simp [hstep, engineStep, hi]
  · simp [hstep, engineStep, he, State.badCommand_eq_ended, State.takeTurn_finishedStatus]

/-! ### What a command writes before it finishes -/

/-- The result registers of a pending word's command (10_state.md R26, column "written by"). -/
def resultRegisters (w : Word) : List RegName :=
  match decodeCommand w with
  | .ok .decode => [.decHdr, .decPlen, .decPoff, .decKey, .decFlen]
  | .ok (.encode _ _) => [.encOutlen]
  | _ => []

/-- Every register's unimplemented bits hold 0 (10_state.md R24, R26). -/
def Regs.implemented (g : Regs) : Prop := ∀ n : RegName, g.get n &&& ~~~implementedBits n = 0#64

theorem Regs.implemented.set {g : Regs} (h : g.implemented) {n : RegName} {v : Word}
    (hv : v &&& ~~~implementedBits n = 0#64) : (g.set n v).implemented := by
  intro m
  rw [Regs.get_set]
  split
  · next hm => exact hm ▸ hv
  · exact h m

/-- A register with all 64 bits implemented may hold any value. -/
theorem implemented_of_full {n : RegName} (hn : implementedBits n = BitVec.allOnes 64) (v : Word) :
    v &&& ~~~implementedBits n = 0#64 := by
  simp [hn]

/-- DEC_POFF is 0 or a payload offset and DEC_FLEN is DEC_POFF + DEC_PLEN (10_state.md R38, R40). -/
def Regs.framed (g : Regs) : Prop :=
  g.decPoff.toNat ∈ [0, 2, 4, 6, 8, 10, 14] ∧ g.decFlen.toNat = g.decPoff.toNat + g.decPlen.toNat

/-- `u` is `s` after the writes of the pending word `w`'s command that precede `finish`: result registers
and cells, nothing else. -/
structure State.CommandWrites (w : Word) (s u : State) : Prop where
  rest : u = { s with regs := u.regs, mem := u.mem }
  regs : ∀ n, n ∉ resultRegisters w → u.regs.get n = s.regs.get n
  memSize : u.mem.size = s.mem.size
  memWf : s.mem.wf = true → u.mem.wf = true
  implemented : s.regs.implemented → u.regs.implemented
  framed : s.regs.framed → u.regs.framed

/-- The end of a command: all its writes, then `finish`; STAGE is given exactly with TRUNCATED
(10_state.md R31, R33). -/
def State.Finishes (w : Word) (s t : State) : Prop :=
  ∃ u c g, State.CommandWrites w s u ∧ (g ≠ Stage.none ↔ c = ErrorCode.truncated) ∧ t = u.finish c g

section
variable {w : Word} {s u : State} (h : State.CommandWrites w s u)
include h

theorem State.CommandWrites.host : u.host = s.host := by rw [h.rest]
theorem State.CommandWrites.observed : u.observed = s.observed := by rw [h.rest]
theorem State.CommandWrites.faults : u.faults = s.faults := by rw [h.rest]

end

theorem status_not_result (w : Word) : RegName.status ∉ resultRegisters w := by
  unfold resultRegisters
  split <;> simp

theorem cmd_not_result (w : Word) : RegName.cmd ∉ resultRegisters w := by
  unfold resultRegisters
  split <;> simp

theorem State.CommandWrites.of_mem {w : Word} {s : State} {m : Memory} (hsize : m.size = s.mem.size)
    (hwf : s.mem.wf = true → m.wf = true) : State.CommandWrites w s { s with mem := m } where
  rest := rfl
  regs _ _ := rfl
  memSize := hsize
  memWf := hwf
  implemented h := h
  framed h := h

theorem State.CommandWrites.refl (w : Word) (s : State) : State.CommandWrites w s s :=
  .of_mem rfl id

theorem State.CommandWrites.trans {w : Word} {s u v : State} (h : State.CommandWrites w s u)
    (h' : State.CommandWrites w u v) : State.CommandWrites w s v where
  rest := by rw [h'.rest, h.rest]
  regs n hn := (h'.regs n hn).trans (h.regs n hn)
  memSize := h'.memSize.trans h.memSize
  memWf hs := h'.memWf (h.memWf hs)
  implemented hs := h'.implemented (h.implemented hs)
  framed hs := h'.framed (h.framed hs)

/-- Some of a command's writes, and then the rest of it. -/
theorem State.Finishes.after {w : Word} {s u t : State} (h : State.CommandWrites w s u)
    (h' : State.Finishes w u t) : State.Finishes w s t := by
  obtain ⟨v, c, g, hv, hg, rfl⟩ := h'
  exact ⟨v, c, g, h.trans hv, hg, rfl⟩

theorem State.CommandWrites.writeBytes {w : Word} {s : State} {a : Nat} {bs : List Byte}
    (ha : a + bs.length ≤ s.mem.size) :
    State.CommandWrites w s { s with mem := s.mem.writeBytes a bs } :=
  .of_mem (s.mem.writeBytes_size a bs) fun h => Memory.writeBytes_wf h ha

/-! ### DECODE's writes -/

theorem State.CommandWrites.decResults {w : Word} {s : State} {hdr plen poff key flen : Word}
    (hw : decodeCommand w = .ok .decode)
    (hhdr : hdr &&& ~~~implementedBits .decHdr = 0#64) (hkey : key &&& ~~~implementedBits .decKey = 0#64)
    (hpoff : poff.toNat ∈ [0, 2, 4, 6, 8, 10, 14]) (hflen : flen.toNat = poff.toNat + plen.toNat) :
    State.CommandWrites w s (s.writeDecResults hdr plen poff key flen) where
  rest := rfl
  regs n hn := by
    simp only [resultRegisters, hw] at hn
    cases n <;> simp at hn <;> rfl
  memSize := rfl
  memWf h := h
  implemented h :=
    ((((h.set hhdr).set (implemented_of_full (n := .decPlen) rfl plen)).set
      (implemented_of_full (n := .decPoff) rfl poff)).set hkey).set (implemented_of_full (n := .decFlen) rfl flen)
  framed _ := ⟨hpoff, hflen⟩

theorem payloadOffset_mem (h : Header) : payloadOffset h ∈ [2, 4, 6, 8, 10, 14] := by
  unfold payloadOffset extSize keySize
  split_ifs <;> simp

theorem State.decFail_finishes {w : Word} (hw : decodeCommand w = .ok .decode) (s : State) {c : ErrorCode}
    {g : Stage} (hg : g ≠ .none ↔ c = .truncated) : State.Finishes w s (s.decFail c g) :=
  ⟨s.writeDecResults 0 0 0 0 0, c, g, .decResults hw (by decide) (by decide) (by decide) (by decide), hg, rfl⟩

/-- A decoded frame's lengths fit their registers, since the frame fits the region of DEC_AVAIL bytes. -/
theorem State.decDone_finishes {w : Word} (hw : decodeCommand w = .ok .decode) (s : State) (h0 h1 : Byte)
    {len : Nat} {key : Word} (hkey : key &&& ~~~implementedBits .decKey = 0#64)
    (hfit : payloadOffset (unpack h0 h1) + len < 2 ^ 64) : State.Finishes w s (s.decDone h0 h1 len key) := by
  have hpoff : (BitVec.ofNat 64 (payloadOffset (unpack h0 h1))).toNat = payloadOffset (unpack h0 h1) := by
    simp only [BitVec.toNat_ofNat]
    omega
  refine ⟨_, .ok, .none, .decResults hw (decHdrWord_implemented _ h0 h1) hkey ?_ ?_, by simp, rfl⟩
  · rw [hpoff]
    exact List.mem_cons_of_mem 0 (payloadOffset_mem _)
  · simp only [hpoff, BitVec.toNat_ofNat]
    omega

theorem State.decodesTo.finishes {w : Word} {s t : State} (hw : decodeCommand w = .ok .decode)
    (h : s.decodesTo t) : State.Finishes w s t := by
  obtain ⟨h0, h1, len, hrange, hfit, ⟨-, rfl⟩ | ⟨-, bs, key, hlen, rfl⟩⟩ := h
  all_goals have hlt : payloadOffset (unpack h0 h1) + len < 2 ^ 64 := lt_of_le_of_lt hfit (BitVec.isLt _)
  · exact s.decDone_finishes hw h0 h1 (by simp) hlt
  · refine .after (.writeBytes ?_) (State.decDone_finishes hw _ h0 h1 (keyRegister_implemented key) hlt)
    rw [xorMask_length]
    unfold Memory.inRange at hrange
    omega

/-! ### ENCODE's writes -/

theorem State.CommandWrites.encOutlen {w : Word} {s : State} {o : BitVec 4} {f : Bool}
    (hw : decodeCommand w = .ok (.encode o f)) (v : Word) :
    State.CommandWrites w s { s with regs := { s.regs with encOutlen := v } } where
  rest := rfl
  regs n hn := by
    have hne : n ≠ .encOutlen := by simpa [resultRegisters, hw] using hn
    exact (Regs.get_set s.regs .encOutlen n v).trans (if_neg hne)
  memSize := rfl
  memWf h := h
  implemented h := h.set (implemented_of_full (n := .encOutlen) rfl v)
  framed h := h

theorem frameHead_length (o : BitVec 4) (f : Bool) (len : Nat) :
    (frameHead o f len).length = 2 + (encodeLength len).2.length := by
  simp only [frameHead, pack, List.length_append, List.length_cons, List.length_nil]

/-! ### ENGINE's step -/

/-- ENGINE's step answers a next state, in which one UNINIT is recorded or the command has finished. -/
theorem engineStep_next (w : Word) (s : State) :
    ∃ t, engineStep w s = .next t ∧
      ((∃ x, s.mem.read x = none ∧ t = s.recordFault (.uninit x)) ∨ State.Finishes w s t) := by
  rcases engineStep_cases w s with ⟨hw, he⟩ | ⟨o, f, hw, he⟩ | ⟨hw, he⟩ | ⟨e, hw, he⟩
  · refine ⟨_, he, ?_⟩
    rcases decodeFrame_cases s with ⟨c, g, hcg, h⟩ | h | h
    · have hg : g ≠ .none ↔ c = .truncated := by
        rcases hcg with ⟨rfl, rfl⟩ | ⟨rfl, hg⟩
        · simp
        · simpa using hg
      exact .inr (h ▸ s.decFail_finishes hw hg)
    · exact .inl h
    · exact .inr (h.finishes hw)
  · refine ⟨_, he, ?_⟩
    rcases encodeFrame_cases o f s with ⟨c, hc, h⟩ | ⟨bs, hl, -, hr, hcap, h⟩ | h
    · rw [h]
      exact .inr ⟨_, c, .none, .encOutlen hw 0, by rcases hc with rfl | rfl | rfl <;> simp, rfl⟩
    · rw [h]
      refine .inr (.after (.writeBytes ?_) ⟨_, .ok, .none, .encOutlen hw _, by simp, rfl⟩)
      rw [List.length_append, frameHead_length]
      unfold Memory.inRange at hr
      unfold frameLength at hcap
      omega
    · exact .inl h
  · refine ⟨_, he, ?_⟩
    rcases xormaskRegion_cases s with ⟨-, h⟩ | ⟨hr, bs, hl, -, h⟩ | ⟨-, h⟩
    · exact .inr ⟨s, .range, .none, .refl w s, by simp, h⟩
    · refine .inr ⟨_, .ok, .none, .writeBytes ?_, by simp, h⟩
      rwa [xorMask_length, hl]
    · exact .inl h
  · exact ⟨_, he, .inr ⟨s, .badCommand, .none, .refl w s, by simp, rfl⟩⟩

/-- What ENGINE's step has done when it answers `t`. -/
theorem engineStep_next_cases {w : Word} {s t : State} (h : engineStep w s = .next t) :
    (∃ x, s.mem.read x = none ∧ t = s.recordFault (.uninit x)) ∨ State.Finishes w s t := by
  obtain ⟨u, hu, hcases⟩ := engineStep_next w s
  obtain rfl : u = t := by simpa [hu] using h
  exact hcases

/-- Settles O42: what `finish` sets, and what a recorded UNINIT leaves. -/
theorem engineStepFinishesOrRecordsUninit : Obligations.EngineStepFinishesOrRecordsUninit := by
  intro s w hm hp
  obtain ⟨hf, hstep⟩ := step_of_engine_turn hm hp
  obtain ⟨t, ht, ⟨x, hx, rfl⟩ | ⟨u, c, g, hu, -, rfl⟩⟩ := engineStep_next w s.takeTurn
  · refine ⟨_, hstep.trans ht, by simp, by simp, .inr ⟨x, ?_, by simpa using hx, ?_⟩⟩
    · rw [State.recordFault_of_none _ (by simpa using hf)]
    · simp
  · have hstatus : u.regs.status = s.takeTurn.regs.status := hu.regs .status (status_not_result w)
    exact ⟨_, hstep.trans ht, by simp [hu.host], by simp [hu.observed],
      .inl ⟨rfl, by simp [hu.faults, hf], by simp, by simp, by simp [hstatus]⟩⟩

end Sys2Proof.Machine
end

section
/-! PROOFS. The invariant of the reachable states: power-on meets it and every step keeps it. -/

namespace Sys2Proof.Machine

/-! ### What the invariant depends on, and the states with every register 0 -/

/-- The invariant speaks of registers, memory and the pending word alone. -/
theorem State.Inv.congr {s t : State} (h : s.Inv) (hregs : t.regs = s.regs) (hmem : t.mem = s.mem)
    (hpending : t.pending = s.pending) : t.Inv := by
  obtain ⟨regs, mem, pending, faults, host, observed, schedule, choices⟩ := t
  subst hregs hmem hpending
  exact ⟨h.memWf, h.memSize, h.busyIff, h.doneIdle, h.unimplemented, h.errRange, h.stageRange,
    h.stageTruncated, h.errIdle, h.opCmd, h.pendingCmd, h.decPoff, h.decFlen⟩

/-- Both resets leave a state of this kind (70_reset_and_hazards.md R241). -/
theorem State.inv_of_zero {s : State} (hregs : s.regs = Regs.zero) (hpending : s.pending = none)
    (hwf : s.mem.wf = true) (hsize : 1 ≤ s.mem.size ∧ s.mem.size ≤ 2 ^ 64) : s.Inv := by
  have hbusy := State.busy_of_zero hregs
  constructor
  case memWf => exact hwf
  case memSize => exact hsize
  case busyIff => simp [hbusy, hpending]
  case doneIdle => exact fun _ => hbusy
  case unimplemented => intro n; simp [hregs]
  case errIdle => simp [hbusy]
  case pendingCmd => simp [hpending]
  all_goals rw [hregs]; decide

theorem State.powerOn_inv {n : Nat} (h1 : 1 ≤ n) (h2 : n ≤ 2 ^ 64) : (State.powerOn n).Inv :=
  State.inv_of_zero rfl rfl (Memory.powerOn_wf n) ⟨h1, h2⟩

/-- Settles O54: every register is 0 and no cell is listed. -/
theorem powerOnMeetsTheInvariant : Obligations.PowerOnMeetsTheInvariant :=
  ⟨fun _ h1 h2 => State.powerOn_inv h1 h2, State.powerOn_inv Config.memSize_bounds.1 Config.memSize_bounds.2⟩

/-! ### ENGINE's step -/

theorem errorBits_le (c : ErrorCode) : (errorBits c).toNat ≤ 5 := by cases c <;> decide

theorem stageBits_le (g : Stage) : (stageBits g).toNat ≤ 4 := by cases g <;> decide

theorem stageBits_ne_zero (g : Stage) : stageBits g ≠ 0#3 ↔ g ≠ .none := by cases g <;> decide

theorem errorBits_eq_one (c : ErrorCode) : errorBits c = 1#4 ↔ c = .truncated := by cases c <;> decide

/-- A finished command leaves STATUS to `finish`, and the other clauses to its own writes. -/
theorem State.Inv.finishes {w : Word} {s t : State} (h : s.Inv) (hfin : State.Finishes w s t) : t.Inv := by
  obtain ⟨u, c, g, hu, hg, rfl⟩ := hfin
  have hstatus : u.regs.status = s.regs.status := hu.regs .status (status_not_result w)
  have hcmd : u.regs.cmd = s.regs.cmd := hu.regs .cmd (cmd_not_result w)
  obtain ⟨hpoff, hflen⟩ := hu.framed ⟨h.decPoff, h.decFlen⟩
  constructor
  case memWf => exact hu.memWf h.memWf
  case memSize => exact hu.memSize ▸ h.memSize
  case busyIff => simp
  case doneIdle => simp
  case unimplemented =>
    exact (hu.implemented h.unimplemented).set (n := .status) (statusWord_implemented _)
  case errRange => simpa using errorBits_le c
  case stageRange => simpa using stageBits_le g
  case stageTruncated =>
    simp only [State.finish_regs_status, statusFields_statusWord]
    exact (stageBits_ne_zero g).trans (hg.trans (errorBits_eq_one c).symm)
  case errIdle => simp
  case opCmd => simpa [hstatus, hcmd] using h.opCmd
  case pendingCmd => simp
  case decPoff => exact hpoff
  case decFlen => exact hflen

theorem State.Inv.of_engineStep {w : Word} {s t : State} (h : s.Inv) (hstep : engineStep w s = .next t) :
    t.Inv := by
  rcases engineStep_next_cases hstep with ⟨x, -, rfl⟩ | hfin
  · exact h.congr rfl rfl rfl
  · exact h.finishes hfin

/-! ### HOST's step -/

theorem State.Inv.issue {s : State} (h : s.Inv) (w : Word) : (s.issue w).Inv := by
  constructor
  case memWf => exact h.memWf
  case memSize => exact h.memSize
  case unimplemented =>
    have hcmd : (s.regs.set .cmd w).implemented :=
      Regs.implemented.set h.unimplemented (implemented_of_full (n := .cmd) rfl w)
    exact hcmd.set (n := .status) (statusWord_implemented _)
  case decPoff => exact h.decPoff
  case decFlen => exact h.decFlen
  all_goals simp

theorem implementedBits_of_rw {n : RegName} (h : regAccess n = .rw) : implementedBits n = BitVec.allOnes 64 := by
  revert h
  cases n <;> decide

theorem and_implementedBits_implemented (n : RegName) (v : Word) :
    (v &&& implementedBits n) &&& ~~~implementedBits n = 0#64 := by
  rw [BitVec.and_assoc]; simp

/-- A WR stores in a register with host access, which no other clause of the invariant names. -/
theorem State.Inv.setOperand {s : State} (h : s.Inv) {n : RegName} {v : Word}
    (hn : regAccess n = .rw ∨ regAccess n = .rwWarl) (hv : v &&& ~~~implementedBits n = 0#64) :
    State.Inv { s with regs := s.regs.set n v } := by
  have hset := Regs.implemented.set h.unimplemented hv
  cases n <;> simp [regAccess] at hn
  all_goals exact ⟨h.memWf, h.memSize, h.busyIff, h.doneIdle, hset, h.errRange, h.stageRange,
    h.stageTruncated, h.errIdle, h.opCmd, h.pendingCmd, h.decPoff, h.decFlen⟩

theorem State.Inv.writeRegister {s : State} (h : s.Inv) (r : RegNum) (v : Word) : (s.writeRegister r v).Inv := by
  rcases s.writeRegister_cases r v with he | ⟨n, u, -, he, ⟨hn, rfl⟩ | ⟨hn, rfl⟩⟩ | ⟨-, he⟩
  all_goals rw [he]
  · exact h
  · exact h.setOperand (.inl hn) (implemented_of_full (implementedBits_of_rw hn) u)
  · exact h.setOperand (.inr hn) (and_implementedBits_implemented n v)
  · exact h.issue v

theorem State.resetAssert_memSize (s : State) : s.resetAssert.mem.size = s.mem.size := by
  unfold State.resetAssert
  dsimp only
  split <;> rfl

theorem State.resetAssert_memWf (s : State) (h : s.mem.wf = true) : s.resetAssert.mem.wf = true := by
  unfold State.resetAssert
  dsimp only
  split
  · exact h
  · exact Memory.forget_wf h

theorem State.Inv.resetAssert {s : State} (h : s.Inv) : s.resetAssert.Inv := by
  refine State.inv_of_zero rfl rfl (s.resetAssert_memWf h.memWf) ?_
  rw [s.resetAssert_memSize]
  exact h.memSize

theorem State.Inv.of_hostStep {bus : BusTuple} {rest : List HostOp} {s t : State} (h : s.Inv)
    (hstep : hostStep bus rest s = .next t) : t.Inv := by
  have hg : State.Inv { s with host := rest } := h.congr rfl rfl rfl
  obtain ⟨i, -, hcases⟩ := hostStep_cases hstep
  rcases hcases with ⟨k, rfl⟩ | ⟨o, rfl⟩ | ⟨r, v, -, -, -, rfl⟩ | ⟨v, -, -, rfl⟩ |
    ⟨a, b, -, ha, -, rfl⟩ | ⟨-, rfl⟩
  · exact hg.congr rfl rfl rfl
  · exact hg.congr rfl rfl rfl
  · exact hg.writeRegister r v
  · exact hg.issue v
  · exact ⟨Memory.write_wf h.memWf ha, h.memSize, h.busyIff, h.doneIdle, h.unimplemented, h.errRange,
      h.stageRange, h.stageTruncated, h.errIdle, h.opCmd, h.pendingCmd, h.decPoff, h.decFlen⟩
  · exact hg.resetAssert

/-! ### Every step -/

/-- Settles O53: whoever moves, the state the turn leaves meets the invariant, and each agent's step keeps
it. -/
theorem stepKeepsTheInvariant : Obligations.StepKeepsTheInvariant := by
  intro s t h hstep
  have hturn : s.takeTurn.Inv := h.congr (by simp) (by simp) (by simp)
  rcases step_cases s with ⟨k, _, -, he⟩ | ⟨-, ⟨w, -, -, he⟩ | ⟨bus, rest, -, -, he⟩ | ⟨-, he⟩⟩
  · rw [he] at hstep; cases hstep
  · exact hturn.of_engineStep (he.symm.trans hstep)
  · exact hturn.of_hostStep (he.symm.trans hstep)
  · rw [he] at hstep; cases hstep; exact h

end Sys2Proof.Machine
end

section
/-! PROOFS. Who writes which register. -/

namespace Sys2Proof.Machine

/-- `issue` writes CMD and STATUS. -/
theorem State.issue_regs_get_ne {s : State} {w : Word} {n : RegName} (h : (s.issue w).regs.get n ≠ s.regs.get n) :
    n = .cmd ∨ n = .status := by
  by_contra hno
  obtain ⟨hcmd, hst⟩ := not_or.1 hno
  have hregs : (s.issue w).regs.get n = (s.regs.set .cmd w).get n :=
    (Regs.get_set (s.regs.set .cmd w) .status n _).trans (if_neg hst)
  exact h (hregs.trans ((Regs.get_set s.regs .cmd n w).trans (if_neg hcmd)))

/-- `finish` writes STATUS. -/
theorem State.finish_regs_get {s : State} {c : ErrorCode} {g : Stage} {n : RegName} (h : n ≠ .status) :
    (s.finish c g).regs.get n = s.regs.get n :=
  (Regs.get_set s.regs .status n _).trans (if_neg h)

/-- ENGINE's step writes STATUS and the pending command's result registers. -/
theorem engineStep_regs_get_ne {w : Word} {s t : State} {n : RegName} (hstep : engineStep w s = .next t)
    (hn : t.regs.get n ≠ s.regs.get n) : n = .status ∨ n ∈ resultRegisters w := by
  rcases engineStep_next_cases hstep with ⟨x, -, rfl⟩ | ⟨v, c, g, hv, -, rfl⟩
  · exact absurd rfl hn
  · by_contra hno
    obtain ⟨hst, hres⟩ := not_or.1 hno
    exact hn ((State.finish_regs_get hst).trans (hv.regs n hres))

theorem mem_resultRegisters {w : Word} {n : RegName} (h : n ∈ resultRegisters w) :
    (decodeCommand w = .ok .decode ∧ n ∈ [RegName.decHdr, .decPlen, .decPoff, .decKey, .decFlen]) ∨
    (∃ o f, decodeCommand w = .ok (.encode o f)) ∧ n = .encOutlen := by
  unfold resultRegisters at h
  split at h
  · next hw => exact .inl ⟨hw, h⟩
  · next o f hw => exact .inr ⟨⟨o, f, hw⟩, by simpa using h⟩
  · cases h

/-- Whose register a host transaction writes, by its kind. -/
theorem hostStep_regs_get_ne {bus : BusTuple} {rest : List HostOp} {s t : State} {n : RegName}
    (hstep : hostStep bus rest s = .next t) (hn : t.regs.get n ≠ s.regs.get n) :
    ∃ i, decodeBus bus = .ok i ∧
      ((∃ v, i = .wr (regNumOf n) v ∧ (regAccess n = .rw ∨ regAccess n = .rwWarl)) ∨
       (∃ v, i = .wrCmd v ∧ (n = .cmd ∨ n = .status)) ∨
       i = .rst) := by
  obtain ⟨i, hi, hcases⟩ := hostStep_cases hstep
  refine ⟨i, hi, ?_⟩
  rcases hcases with ⟨k, rfl⟩ | ⟨o, rfl⟩ | ⟨r, v, rfl, hr, -, rfl⟩ | ⟨v, rfl, -, rfl⟩ |
    ⟨a, b, -, -, -, rfl⟩ | ⟨rfl, -⟩
  · exact absurd rfl hn
  · exact absurd rfl hn
  · rcases State.writeRegister_cases _ r v with he | ⟨m, u, rfl, he, hm⟩ | ⟨rfl, -⟩
    · rw [he] at hn; exact absurd rfl hn
    · rw [he] at hn
      obtain rfl : n = m := by
        by_contra hne
        exact hn ((Regs.get_set _ m n u).trans (if_neg hne))
      exact .inl ⟨v, rfl, hm.imp And.left And.left⟩
    · exact absurd rfl hr
  · exact .inr (.inl ⟨v, rfl, State.issue_regs_get_ne hn⟩)
  · exact absurd rfl hn
  · exact .inr (.inr rfl)

/-- Settles O45: each agent's step by what it can change. -/
theorem registersAreWrittenOnlyByTheirWriters : Obligations.RegistersAreWrittenOnlyByTheirWriters := by
  intro s t n hstep hn
  have hturn : t.regs.get n ≠ s.takeTurn.regs.get n := by simpa using hn
  rcases step_cases s with ⟨k, _, -, he⟩ | ⟨-, ⟨w, hm, hp, he⟩ | ⟨bus, rest, hm, ht, he⟩ | ⟨-, he⟩⟩
  · rw [he] at hstep; cases hstep
  · refine .inl ⟨w, hm, hp, ?_⟩
    exact (engineStep_regs_get_ne (he.symm.trans hstep) hturn).imp id mem_resultRegisters
  · obtain ⟨i, hi, hw⟩ := hostStep_regs_get_ne (he.symm.trans hstep) hturn
    exact .inr ⟨bus, rest, i, hm, ht, hi, hw⟩
  · rw [he] at hstep; cases hstep; exact absurd rfl hn

end Sys2Proof.Machine
end

section
/-! PROOFS. Every finite run of a host program under a schedule is a run of the core machine: the program is
the list of what was sent, the schedule the list of who moved where both agents could. -/

namespace Sys2Proof.Machine

/-! ### MEM_SIZE stays, and a well-formed transaction is not refused -/

theorem engineStep_memSize {w : Word} {s t : State} (h : engineStep w s = .next t) :
    t.mem.size = s.mem.size := by
  rcases engineStep_next_cases h with ⟨x, -, rfl⟩ | ⟨v, c, g, hv, -, rfl⟩
  · rfl
  · exact hv.memSize

theorem State.writeRegister_mem (s : State) (r : RegNum) (v : Word) : (s.writeRegister r v).mem = s.mem := by
  rcases s.writeRegister_cases r v with he | ⟨_, _, -, he, -⟩ | ⟨-, he⟩ <;> simp [he]

theorem hostStep_memSize {bus : BusTuple} {rest : List HostOp} {s t : State}
    (h : hostStep bus rest s = .next t) : t.mem.size = s.mem.size := by
  obtain ⟨i, -, hcases⟩ := hostStep_cases h
  rcases hcases with ⟨k, rfl⟩ | ⟨o, rfl⟩ | ⟨r, v, -, -, -, rfl⟩ | ⟨v, -, -, rfl⟩ |
    ⟨a, b, -, -, -, rfl⟩ | ⟨-, rfl⟩
  · rfl
  · rfl
  · rw [State.writeRegister_mem]
  · rfl
  · rfl
  · exact State.resetAssert_memSize _

/-- Only a memory transaction outside memory is refused (43_host_transactions.md R194, R195). -/
theorem exec_next_of_wellFormed {i : Instr} {s : State} (h : i.wellFormed s.mem.size = true) :
    ∃ t, exec i s = .next t := by
  cases i with
  | mrd a =>
    have ha : a < s.mem.size := by simpa [Instr.wellFormed] using h
    exact ⟨_, if_pos ha⟩
  | mwr a b =>
    have ha : a < s.mem.size := by simpa [Instr.wellFormed] using h
    exact ⟨_, if_pos ha⟩
  | _ => exact ⟨_, rfl⟩

/-! ### One step of the core machine with a program and a schedule of its own -/

/-- A step in which nobody can move is the whole run. -/
theorem core_run_of_idle {s : State} (h : step s = .next s) (n : Nat) :
    Sys2Proof.core.run n s = .next s := by
  induction n with
  | zero => rfl
  | succ n ih => rw [core_run_next n h, ih]

/-- With nothing pending and no program the core machine is idle. -/
theorem step_of_idle {s : State} (hp : s.pending = none) (hf : s.faults = []) (l : List Agent) :
    step (s.replan [] l) = .next (s.replan [] l) := by
  have hnext : (s.replan [] l).nextTransaction = none := rfl
  simp [step, hf, hp, hnext]

/-- Where both agents are enabled, naming one in the schedule lets it move and leaves the rest. -/
theorem State.replan_mover_of_both {s : State} {p : List HostOp} {l : List Agent} {a : Agent}
    (he : (s.replan p (a :: l)).engineEnabled = true) (hh : (s.replan p (a :: l)).hostEnabled = true) :
    (s.replan p (a :: l)).mover = some a ∧ (s.replan p (a :: l)).takeTurn = s.replan p l := by
  refine ⟨State.mover_of_both he hh, ?_⟩
  simp only [State.takeTurn, he, hh, Bool.and_self, if_true]
  rfl

/-- Where not both agents are enabled, a step uses up nothing of the schedule. -/
theorem State.takeTurn_of_not_both {s : State} (h : (s.engineEnabled && s.hostEnabled) = false) :
    s.takeTurn = s := by
  simp [State.takeTurn, h]

theorem State.replan_engineEnabled (s : State) (p : List HostOp) (l : List Agent) :
    (s.replan p l).engineEnabled = s.engineEnabled := rfl

/-- Some schedule lets ENGINE move next and leaves `l`. -/
theorem exists_schedule_engine {s : State} (he : s.engineEnabled = true) (p : List HostOp) (l : List Agent) :
    ∃ l', (s.replan p l').mover = some .engine ∧ (s.replan p l').takeTurn = s.replan p l := by
  cases hh : (s.replan p l).hostEnabled with
  | true =>
    exact ⟨.engine :: l,
      State.replan_mover_of_both he (((s.replan p l).hostEnabled_reschedule _).trans hh)⟩
  | false => exact ⟨l, State.mover_of_engine_only he hh, State.takeTurn_of_not_both (by simp [hh])⟩

/-- Some schedule lets the host move next and leaves `l`. -/
theorem exists_schedule_host {s : State} {p : List HostOp}
    (hh : ∀ l, (s.replan p l).hostEnabled = true) (l : List Agent) :
    ∃ l', (s.replan p l').mover = some .host ∧ (s.replan p l').takeTurn = s.replan p l := by
  cases he : s.engineEnabled with
  | true => exact ⟨.host :: l, State.replan_mover_of_both he (hh _)⟩
  | false =>
    exact ⟨l, State.mover_of_host_only he (hh l),
      State.takeTurn_of_not_both (by simp [State.replan_engineEnabled, he])⟩

/-- ENGINE's step from `s` is a step of the core machine that leaves any given program and schedule. -/
theorem exists_step_engine {s t : State} {w : Word} (hp : s.pending = some w) (hf : s.faults = [])
    (hstep : engineStep w s = .next t) (p : List HostOp) (l : List Agent) :
    ∃ l', step (s.replan p l') = .next (t.replan p l) := by
  have he : s.engineEnabled = true := s.engineEnabled_iff.2 ⟨by simp [hp], hf⟩
  obtain ⟨l', hm, hturn⟩ := exists_schedule_engine he p l
  refine ⟨l', (step_of_engine_turn hm hp).2.trans ?_⟩
  rw [hturn, engineStep_replan, hstep]
  rfl

/-- A transaction from `s` is a step of the core machine that leaves any given program and schedule. -/
theorem exists_step_host {s t : State} {bus : BusTuple} {i : Instr} (hi : decodeBus bus = .ok i)
    (hf : s.faults = []) (hexec : exec i s = .next t) (p : List HostOp) (l : List Agent) :
    ∃ l', step (s.replan (.txn bus :: p) l') = .next (t.replan p l) := by
  have hnext (l : List Agent) : (s.replan (.txn bus :: p) l).nextTransaction = some (bus, p) := rfl
  have hh (l : List Agent) : (s.replan (.txn bus :: p) l).hostEnabled = true :=
    (State.hostEnabled_iff _).2 ⟨by simp [hnext l], hf⟩
  obtain ⟨l', hm, hturn⟩ := exists_schedule_host hh l
  have hstep : step (s.replan (.txn bus :: p) l') = hostStep bus p (s.replan (.txn bus :: p) l) := by
    simp [step, hf, hm, hnext, hturn]
  have hreplan : exec i (s.replan p l) = .next (t.replan p l) := by
    rw [exec_replan, hexec]; rfl
  refine ⟨l', hstep.trans ?_⟩
  simp only [hostStep, hi]
  exact hreplan

/-! ### The run -/

/-- The core machine runs from `s` to `t` in `n` steps for some program and schedule, whatever is then left
of both. -/
def State.coreReaches (s : State) (n : Nat) (t : State) : Prop :=
  ∃ p l p' l', Sys2Proof.core.run n (s.replan p l) = .next (t.replan p' l')

/-- A first step that can leave any program and schedule, and then a run. -/
theorem State.coreReaches.cons {s u t : State} {n : Nat}
    (hfirst : ∀ p l, ∃ p₀ l₀, step (s.replan p₀ l₀) = .next (u.replan p l)) (h : u.coreReaches n t) :
    s.coreReaches (n + 1) t := by
  obtain ⟨p, l, p', l', hrun⟩ := h
  obtain ⟨p₀, l₀, hstep⟩ := hfirst p l
  exact ⟨p₀, l₀, p', l', (core_run_next n hstep).trans hrun⟩

theorem State.coreReaches_self {s : State} (hp : s.pending = none) (hf : s.faults = []) (n : Nat) :
    s.coreReaches n s :=
  ⟨[], [], [], [], core_run_of_idle (step_of_idle hp hf []) n⟩

/-- By induction on the number of steps, along the run's first step. -/
theorem coreReaches_play {P : HostProgram} {σ : Schedule} {c : Play} {n : Nat}
    (hwf : P.wellFormed c.state.mem.size) (hf : ∀ m, m < n → (play P σ c m).state.faults = []) :
    c.state.coreReaches n (play P σ c n).state := by
  induction n generalizing σ c with
  | zero => exact ⟨[], [], [], [], rfl⟩
  | succ n ih =>
    have hf0 : c.state.faults = [] := hf 0 (Nat.succ_pos n)
    have hrest {d : Play} (hnext : c.next P (σ 0) = .next d)
        (hsize : d.state.mem.size = c.state.mem.size) :
        d.state.coreReaches n (play P σ c (n + 1)).state := by
      have hshift (m : Nat) : play P σ c (m + 1) = play P (fun k => σ (k + 1)) d m := by
        rw [play_shift, play_succ_of_next (n := 0) hnext]
      rw [hshift]
      refine ih (hsize ▸ hwf) fun m hm => ?_
      rw [← hshift]
      exact hf (m + 1) (Nat.succ_lt_succ hm)
    rcases c.next_cases P (σ 0) with ⟨hm, -⟩ | ⟨w, -, hp, -, he⟩ | ⟨bus, -, hbus, -, he⟩
    · have hidle (b : Agent) : c.enabled P b = false := by
        by_contra hb
        obtain ⟨b', hb'⟩ := Play.mover_isSome (a := σ 0) (by simpa using hb)
        simp [hm] at hb'
      have hp : c.state.pending = none := by
        by_contra hp
        simpa [hidle] using Play.enabled_engine (P := P).2 ⟨hp, hf0⟩
      rw [play_stays (k := 0) hidle (Nat.zero_le _)]
      exact State.coreReaches_self hp hf0 _
    · obtain ⟨t, ht, -⟩ := engineStep_next w c.state
      exact .cons (fun p l => ⟨p, exists_step_engine hp hf0 ht p l⟩)
        (hrest (d := ⟨t, c.sent⟩) (by rw [he, ht]; rfl) (engineStep_memSize ht))
    · obtain ⟨i, hi, hiwf⟩ := hwf _ _ _ hbus
      obtain ⟨t, ht⟩ := exec_next_of_wellFormed hiwf
      have hstep : hostStep bus c.state.host c.state = .next t := by
        simp only [hostStep, hi]; exact ht
      exact .cons (fun p l => ⟨.txn bus :: p, exists_step_host hi hf0 ht p l⟩)
        (hrest (d := ⟨t, c.sent + 1⟩) (by rw [he, hstep]; rfl) (hostStep_memSize hstep))

/-- Settles O57: the core machine reaches the run's state but for the program and schedule left. -/
theorem everyPlayIsARunOfTheMachine : Obligations.EveryPlayIsARunOfTheMachine := by
  intro P σ c n hwf hf
  obtain ⟨p, l, p', l', hrun⟩ := coreReaches_play hwf hf
  exact ⟨p, l, _, hrun, rfl, rfl, rfl, rfl, rfl⟩

end Sys2Proof.Machine
end

section
/-! PROOFS. The memory's canonical form and MEM_SIZE stay in every step, whatever the registers hold
(20_memory.md R60). -/

namespace Sys2Proof.Machine

/-- A command's writes keep the form, and neither `finish` nor a recorded UNINIT touches a cell. -/
theorem engineStep_memWf {w : Word} {s t : State} (hwf : s.mem.wf = true) (h : engineStep w s = .next t) :
    t.mem.wf = true := by
  rcases engineStep_next_cases h with ⟨x, -, rfl⟩ | ⟨u, c, g, hu, -, rfl⟩
  · exact hwf
  · exact hu.memWf hwf

/-- Of the transactions only MWR, below MEM_SIZE, and RST reach memory. -/
theorem hostStep_memWf {bus : BusTuple} {rest : List HostOp} {s t : State} (hwf : s.mem.wf = true)
    (h : hostStep bus rest s = .next t) : t.mem.wf = true := by
  obtain ⟨i, -, hcases⟩ := hostStep_cases h
  rcases hcases with ⟨k, rfl⟩ | ⟨o, rfl⟩ | ⟨r, v, -, -, -, rfl⟩ | ⟨v, -, -, rfl⟩ |
    ⟨a, b, -, ha, -, rfl⟩ | ⟨-, rfl⟩
  · exact hwf
  · exact hwf
  · rwa [State.writeRegister_mem]
  · exact hwf
  · exact Memory.write_wf hwf ha
  · exact State.resetAssert_memWf _ hwf

/-- Settles O52: the turn leaves memory as it is, each agent's step keeps the form and the size, and an idle
step changes nothing. -/
theorem stepKeepsTheMemoryForm : Obligations.StepKeepsTheMemoryForm := by
  intro s t hwf hstep
  have hturn : s.takeTurn.mem = s.mem := s.takeTurn_mem
  rcases step_cases s with ⟨k, _, -, he⟩ | ⟨-, ⟨w, -, -, he⟩ | ⟨bus, rest, -, -, he⟩ | ⟨-, he⟩⟩
  all_goals rw [he] at hstep
  · cases hstep
  · exact ⟨engineStep_memWf (hturn ▸ hwf) hstep, hturn ▸ engineStep_memSize hstep⟩
  · exact ⟨hostStep_memWf (hturn ▸ hwf) hstep, hturn ▸ hostStep_memSize hstep⟩
  · cases hstep
    exact ⟨hwf, rfl⟩

end Sys2Proof.Machine
end

section
/-! PROOFS. The decoder and the encoder of command words and bus tuples (30_encoding.md R81-R87). -/

namespace Sys2Proof.Machine

/-! ### Bus tuples -/

@[simp] theorem decodeRegNum_toNat (r : RegNum) : decodeRegNum r.toNat = .ok r := by
  simp [decodeRegNum, r.isLt]

@[simp] theorem decodeValue_toNat {width : Nat} (v : BitVec width) : decodeValue width v.toNat = .ok v := by
  simp [decodeValue, v.isLt]

theorem toNat_of_decodeRegNum {n : Nat} {r : RegNum} (h : decodeRegNum n = .ok r) : r.toNat = n := by
  unfold decodeRegNum at h
  split at h
  · next hn => cases h; exact (BitVec.toNat_ofNat _ _).trans (Nat.mod_eq_of_lt hn)
  · cases h

theorem toNat_of_decodeValue {width n : Nat} {v : BitVec width} (h : decodeValue width n = .ok v) :
    v.toNat = n := by
  unfold decodeValue at h
  split at h
  · next hn => cases h; exact (BitVec.toNat_ofNat _ _).trans (Nat.mod_eq_of_lt hn)
  · cases h

theorem decodeRegNum_of_gt {n : Nat} (h : 0x3F < n) : decodeRegNum n = .error (.noSuchRegister n) :=
  if_neg (by omega)

@[simp] theorem decodeBus_rd (r : RegNum) : decodeBus ⟨.rd, some r.toNat, none⟩ = .ok (.rd r) := by
  simp [decodeBus]

theorem decodeBus_wr {r : RegNum} (v : Word) (hr : r ≠ 0#6) :
    decodeBus ⟨.wr, some r.toNat, some v.toNat⟩ = .ok (.wr r v) := by
  simp [decodeBus, hr]

@[simp] theorem decodeBus_wrCmd (v : Word) : decodeBus ⟨.wr, some 0, some v.toNat⟩ = .ok (.wrCmd v) := by
  simp [decodeBus, decodeRegNum]

@[simp] theorem decodeBus_mrd (a : Nat) : decodeBus ⟨.mrd, some a, none⟩ = .ok (.mrd a) := rfl

@[simp] theorem decodeBus_mwr (a : Nat) (b : Byte) :
    decodeBus ⟨.mwr, some a, some b.toNat⟩ = .ok (.mwr a b) := by
  simp [decodeBus]

@[simp] theorem decodeBus_rst : decodeBus ⟨.rst, none, none⟩ = .ok .rst := rfl

/-- A tuple that decodes has every field of its transaction and no other. -/
theorem encode_of_decodeBus {t : BusTuple} {i : Instr} (h : decodeBus t = .ok i) : encode i = .bus t := by
  unfold decodeBus at h
  split at h
  · split at h <;> cases h
    next hr => simp [encode, toNat_of_decodeRegNum hr]
  · split at h <;> cases h
    next r v hr hv =>
      rw [← toNat_of_decodeRegNum hr, ← toNat_of_decodeValue hv]
      split
      · next h0 => simp [encode, h0]
      · rfl
  · cases h; rfl
  · split at h <;> cases h
    next hb => simp [encode, toNat_of_decodeValue hb]
  · cases h; rfl
  · cases h

/-! ### Command words -/

/-- The fields of 30_encoding.md R81: must-be-zero of ENCODE, FIN, FOPC, OP. -/
theorem commandWord_eq_append (w : Word) :
    w = w.extractLsb' 9 55 ++ BitVec.ofBool (w.getLsbD 8) ++ w.extractLsb' 4 4 ++ w.extractLsb' 0 4 := by
  have hfin : BitVec.ofBool (w.getLsbD 8) = w.extractLsb' 8 1 := by
    apply BitVec.eq_of_getLsbD_eq
    intro i hi
    simp [show i = 0 by omega]
  rw [hfin, BitVec.extractLsb'_append_extractLsb'_eq_extractLsb' (show 9 = 8 + 1 from rfl),
    BitVec.extractLsb'_append_extractLsb'_eq_extractLsb' (show 8 = 4 + 4 from rfl),
    BitVec.extractLsb'_append_extractLsb'_eq_extractLsb' (show 4 = 0 + 4 from rfl)]
  exact BitVec.extractLsb'_eq_self.symm

/-- ENCODE's mask keeps OP and the must-be-zero bits, and drops FIN and FOPC (30_encoding.md R86). -/
theorem commandWord_and_encodeMask (w : Word) :
    w &&& 0xFFFFFFFFFFFFFE0F#64 = w.extractLsb' 9 55 ++ 0#1 ++ 0#4 ++ w.extractLsb' 0 4 := by
  have hmask : 0xFFFFFFFFFFFFFE0F#64 = BitVec.allOnes 55 ++ 0#1 ++ 0#4 ++ BitVec.allOnes 4 := by decide
  conv_lhs => rw [commandWord_eq_append w, hmask]
  repeat rw [BitVec.and_append]
  simp [-BitVec.reduceAllOnes]

/-- A word that decodes is the encoding of what it decodes to, and of nothing else. -/
theorem decodeCommand_eq_ok_iff {w : Word} {i : Instr} : decodeCommand w = .ok i ↔ encode i = .command w := by
  constructor
  · intro h
    have hop : w = w.extractLsb' 4 60 ++ w.extractLsb' 0 4 :=
      (BitVec.extractLsb'_append_extractLsb' (w := 60) (len := 4) (x := w)).symm
    simp only [decodeCommand] at h
    split_ifs at h with h1 h2 h3 h4 h5 h6 <;> cases h
    · rw [hop, h1, h2]; rfl
    · conv_rhs => rw [commandWord_eq_append w, h3, h4]
      rfl
    · rw [hop, h5, h6]; rfl
  · intro h
    cases i with
    | decode => cases h; rfl
    | encode o f => cases h; revert o f; decide
    | xormask => cases h; rfl
    | _ => cases h

theorem decode_encode_of_command {w : Word} {i : Instr} (h : encode i = .command w) :
    decode (encode i) = .ok i := by
  rw [h]
  exact decodeCommand_eq_ok_iff.2 h

/-- ENCODE's command word as 30_encoding.md R88 writes it for `cmd encode`. -/
theorem encode_encode_eq_ofNat (o : BitVec 4) (f : Bool) :
    encode (.encode o f) = .command (BitVec.ofNat 64 (0x2 + o.toNat * 0x10 + f.toNat * 0x100)) := by
  revert o f; decide

/-! ### The opcode map -/

theorem decodeCommand_eq_decode_iff (w : Word) :
    decodeCommand w = .ok .decode ↔ w &&& 0xFFFFFFFFFFFFFFFF#64 = 0x1#64 := by
  have hmask : w &&& 0xFFFFFFFFFFFFFFFF#64 = w := BitVec.and_allOnes
  rw [decodeCommand_eq_ok_iff, hmask]
  simp [encode, eq_comm]

theorem decodeCommand_eq_xormask_iff (w : Word) :
    decodeCommand w = .ok .xormask ↔ w &&& 0xFFFFFFFFFFFFFFFF#64 = 0x3#64 := by
  have hmask : w &&& 0xFFFFFFFFFFFFFFFF#64 = w := BitVec.and_allOnes
  rw [decodeCommand_eq_ok_iff, hmask]
  simp [encode, eq_comm]

/-- ENCODE's row selects exactly ENCODE's words. -/
theorem and_encodeMask_of_decodeCommand {w : Word} {o : BitVec 4} {f : Bool}
    (h : decodeCommand w = .ok (.encode o f)) : w &&& 0xFFFFFFFFFFFFFE0F#64 = 0x2#64 := by
  cases decodeCommand_eq_ok_iff.1 h
  clear h
  revert o f; decide

theorem decodeCommand_of_and_encodeMask {w : Word} (h : w &&& 0xFFFFFFFFFFFFFE0F#64 = 0x2#64) :
    decodeCommand w = .ok (.encode (w.extractLsb' 4 4) (w.getLsbD 8)) := by
  have hsum := congrArg BitVec.toNat ((commandWord_and_encodeMask w).symm.trans h)
  simp only [toNat_append_eq_add, BitVec.toNat_ofNat] at hsum
  have hop : w.extractLsb' 0 4 = 2#4 := BitVec.eq_of_toNat_eq (by simp only [BitVec.toNat_ofNat]; omega)
  have hzero : w.extractLsb' 9 55 = 0#55 := BitVec.eq_of_toNat_eq (by simp only [BitVec.toNat_ofNat]; omega)
  simp [decodeCommand, hop, hzero]

theorem opcodeRow_selects_iff (row : OpcodeRow) (w : Word) :
    row.selects w = true ↔ w &&& row.mask = row.matchBits := by
  simp [OpcodeRow.selects]

theorem decodeRow_selects_iff (w : Word) : decodeRow.selects w = true ↔ decodeCommand w = .ok .decode :=
  (opcodeRow_selects_iff decodeRow w).trans (decodeCommand_eq_decode_iff w).symm

theorem encodeRow_selects_iff (w : Word) :
    encodeRow.selects w = true ↔ ∃ o f, decodeCommand w = .ok (.encode o f) :=
  (opcodeRow_selects_iff encodeRow w).trans
    ⟨fun h => ⟨_, _, decodeCommand_of_and_encodeMask h⟩,
      fun ⟨_, _, h⟩ => and_encodeMask_of_decodeCommand h⟩

theorem xormaskRow_selects_iff (w : Word) : xormaskRow.selects w = true ↔ decodeCommand w = .ok .xormask :=
  (opcodeRow_selects_iff xormaskRow w).trans (decodeCommand_eq_xormask_iff w).symm

/-- A word is rejected exactly when it selects no row. -/
theorem decodeCommand_error_iff (w : Word) :
    (∃ e, decodeCommand w = .error e) ↔
      decodeRow.selects w = false ∧ encodeRow.selects w = false ∧ xormaskRow.selects w = false := by
  simp only [← Bool.not_eq_true, decodeRow_selects_iff, encodeRow_selects_iff, xormaskRow_selects_iff]
  rcases decodeCommand_cases w with h | ⟨o, f, h⟩ | h | ⟨e, h⟩ <;> simp [h]

/-- No word selects two rows, since none decodes to two commands. -/
theorem selected_rows_length_le (w : Word) :
    ([decodeRow, encodeRow, xormaskRow].filter fun row => row.selects w).length ≤ 1 := by
  simp only [List.filter_cons, List.filter_nil, decodeRow_selects_iff, encodeRow_selects_iff,
    xormaskRow_selects_iff]
  rcases decodeCommand_cases w with h | ⟨o, f, h⟩ | h | ⟨e, h⟩ <;> simp [h]

theorem engineStep_of_error {w : Word} {e : Reject} (h : decodeCommand w = .error e) (s : State) :
    engineStep w s = .next (s.ended { s.regs with status := s.finishedStatus 5#4 0#3 } s.mem) := by
  simp only [engineStep, h, State.badCommand_eq_ended]

/-! ### The obligations about encodings -/

/-- Settles O1: by the kind of instruction; well-formedness leaves out the WR that is encoded as WR_CMD. -/
theorem decodeInvertsEncode : Obligations.DecodeInvertsEncode := by
  intro memSize i hwf
  cases i with
  | decode => exact decode_encode_of_command rfl
  | encode o f => exact decode_encode_of_command rfl
  | xormask => exact decode_encode_of_command rfl
  | rd r => exact decodeBus_rd r
  | wr r v => exact decodeBus_wr v (by simpa [Instr.wellFormed] using hwf)
  | wrCmd v => exact decodeBus_wrCmd v
  | mrd a => exact decodeBus_mrd a
  | mwr a b => exact decodeBus_mwr a b
  | rst => exact decodeBus_rst

/-- Settles O2: no bit of a word and no field of a tuple is ignored. -/
theorem encodeInvertsDecode : Obligations.EncodeInvertsDecode := by
  intro e i h
  cases e with
  | command w => exact decodeCommand_eq_ok_iff.1 h
  | bus t => exact encode_of_decodeBus h

/-- Settles O3: each row selects the words that decode to its command. -/
theorem commandDispatchIsTheOpcodeMap : Obligations.CommandDispatchIsTheOpcodeMap := fun w =>
  ⟨decodeCommand_eq_decode_iff w, ⟨and_encodeMask_of_decodeCommand, decodeCommand_of_and_encodeMask⟩,
    decodeCommand_eq_xormask_iff w, decodeCommand_error_iff w, fun ⟨_, he⟩ s => engineStep_of_error he s,
    selected_rows_length_le w⟩

/-- Settles O4: the legal words are encodings; the illegal ones select no row. -/
theorem commandWordsDecodeAsWritten : Obligations.CommandWordsDecodeAsWritten := by
  refine ⟨decodeCommand_eq_ok_iff.2 rfl, decodeCommand_eq_ok_iff.2 rfl,
    fun o f => decodeCommand_eq_ok_iff.2 (encode_encode_eq_ofNat o f), fun w hw => ?_⟩
  fin_cases hw <;> exact ⟨_, rfl⟩

/-- Settles O5: the decoder's equation for each form of tuple. -/
theorem busTuplesDecodeAsWritten : Obligations.BusTuplesDecodeAsWritten := by
  refine ⟨decodeBus_rd, fun r v => decodeBus_wr v, decodeBus_wrCmd, decodeBus_mrd, decodeBus_mwr,
    decodeBus_rst, fun r hr => ?_, fun r v hr => ?_⟩
  · simp [decodeBus, decodeRegNum_of_gt hr]
  · simp [decodeBus, decodeRegNum_of_gt hr]

/-- Settles O51: `cmd encode` writes CMD with the encoder's word. -/
theorem cmdEncodeWritesTheEncodeWord : Obligations.CmdEncodeWritesTheEncodeWord := fun o f =>
  ⟨encode_encode_eq_ofNat o f, _, rfl, decodeBus_wrCmd _,
    decodeCommand_eq_ok_iff.2 (encode_encode_eq_ofNat o f)⟩

end Sys2Proof.Machine
end

section
/-! PROOFS. The pseudo-instructions that use what a transaction returned: `wait` and `copy` (30_encoding.md
R88, log entry 17). -/

namespace Sys2Proof.Machine

/-! ### The host's turn -/

theorem step_of_host_turn {s : State} {bus : BusTuple} {rest : List HostOp} {i : Instr} (hf : s.faults = [])
    (hm : s.mover = some .host) (hn : s.nextTransaction = some (bus, rest)) (hi : decodeBus bus = .ok i) :
    step s = exec i { s.takeTurn with host := rest } := by
  simp [step, hf, hm, hn, hostStep, hi]

/-- With nothing pending every step is the host's, and no choice of the schedule is used up. -/
theorem step_of_nothing_pending {s : State} {bus : BusTuple} {rest : List HostOp} {i : Instr}
    (hf : s.faults = []) (hp : s.pending = none) (hn : s.nextTransaction = some (bus, rest))
    (hi : decodeBus bus = .ok i) : step s = exec i { s with host := rest } := by
  have he : s.engineEnabled = false := by simp [State.engineEnabled, hp]
  have hh : s.hostEnabled = true := s.hostEnabled_iff.2 ⟨by simp [hn], hf⟩
  rw [step_of_host_turn hf (State.mover_of_host_only he hh) hn hi, State.takeTurn_of_not_both (by simp [he])]

/-! ### Transactions of an idle block, and STATUS -/

theorem exec_rd_status (s : State) :
    exec (.rd (regNumOf .status)) s =
      .next (s.observe (.register (regNumOf .status) (s.regs.status &&& implementedBits .status))) := by
  simp [exec, execRd, readRegister, Regs.readNumber, Regs.get]

theorem exec_mrd_of_read {s : State} {a : Nat} {b : Byte} (hb : s.busy = false) (ha : a < s.mem.size)
    (hr : s.mem.read a = some b) : exec (.mrd a) s = .next (s.observe (.byte a b)) := by
  simp [exec, execMrd, ha, State.unlessBusy, hb, readCell, State.readingByte, hr]

theorem exec_mwr_of_idle {s : State} {a : Nat} (b : Byte) (hb : s.busy = false) (ha : a < s.mem.size) :
    exec (.mwr a b) s = .next { s with mem := s.mem.write a b } := by
  simp [exec, execMwr, ha, State.unlessBusy, hb]

/-- BUSY is bit 0 of the value a STATUS read returns. -/
theorem State.statusRead_getLsbD_zero (s : State) : (s.regs.status &&& implementedBits .status).getLsbD 0 = s.busy := by
  have hbit : (implementedBits .status).getLsbD 0 = true := by decide
  rw [BitVec.getLsbD_and, hbit, Bool.and_true]
  rfl

/-! ### wait -/

/-- Settles O48: the item's transaction is a STATUS read, and BUSY is what the read returns in bit 0. -/
theorem waitPollsStatus : Obligations.WaitPollsStatus := by
  intro s rest hf hhost hm
  have hn : s.nextTransaction =
      some (⟨.rd, some (regNumOf .status).toNat, none⟩, if s.busy then .wait :: rest else rest) := by
    rw [State.nextTransaction, hhost]; rfl
  refine ⟨s.regs.status &&& implementedBits .status, ?_, rfl⟩
  rw [step_of_host_turn hf hm hn (decodeBus_rd _), exec_rd_status, State.statusRead_getLsbD_zero]
  simp [State.observe, regNumOf]

/-! ### copy -/

theorem Memory.holds_cons (m : Memory) (a : Nat) (b : Byte) (bs : List Byte) :
    m.holds a (b :: bs) ↔ m.read a = some b ∧ m.holds (a + 1) bs := by
  have hone : m.holds a [b] ↔ m.read a = some b := by simp [Memory.holds]
  simpa [hone] using m.holds_append a [b] bs

/-- A write outside the bytes leaves them where they are. -/
theorem Memory.holds.write {m : Memory} {a x : Nat} {bs : List Byte} (h : m.holds a bs)
    (hx : x < a ∨ a + bs.length ≤ x) (b : Byte) : (m.write x b).holds a bs := fun i hi => by
  rw [m.read_write_other b (by omega)]
  exact h i hi

section
variable {s : State} {src dst : Nat} {rest : List HostOp} (hf : s.faults = []) (hp : s.pending = none)
  (hb : s.busy = false)
include hf hp hb

/-- One round of `copy` is a read of the source cell and a write of the destination cell. -/
theorem core_run_copy_round {n : Nat} {b : Byte} (k : Nat) (hhost : s.host = .copy src dst (n + 1) :: rest)
    (hsrc : src < s.mem.size) (hdst : dst < s.mem.size) (hr : s.mem.read src = some b) :
    Sys2Proof.core.run (k + 2) s = Sys2Proof.core.run k
      { s with
        host := .copy (src + 1) (dst + 1) n :: rest
        mem := s.mem.write dst b
        observed := s.observed ++ [.byte src b] } := by
  have hn : s.nextTransaction =
      some (⟨.mrd, some src, none⟩, hostSb dst b :: .copy (src + 1) (dst + 1) n :: rest) := by
    simp [State.nextTransaction, hhost, fetchHost, hr]
  have hread := (step_of_nothing_pending hf hp hn (decodeBus_mrd src)).trans (exec_mrd_of_read hb hsrc hr)
  have hwrite := (step_of_nothing_pending (s := State.observe
      { s with host := hostSb dst b :: .copy (src + 1) (dst + 1) n :: rest } (.byte src b))
    hf hp rfl (decodeBus_mwr dst b)).trans (exec_mwr_of_idle b hb hdst)
  exact (core_run_next (k + 1) hread).trans (core_run_next k hwrite)

/-- The whole loop, by induction on the bytes; what is left of it is a `copy` of none. -/
theorem core_run_copy {p : List Byte} (hhost : s.host = .copy src dst p.length :: rest)
    (hsrc : src + p.length ≤ s.mem.size) (hdst : dst + p.length ≤ s.mem.size)
    (hapart : src + p.length ≤ dst ∨ dst + p.length ≤ src) (hholds : s.mem.holds src p) :
    ∃ obs, Sys2Proof.core.run (2 * p.length) s = .next
      { s with
        host := .copy (src + p.length) (dst + p.length) 0 :: rest
        mem := s.mem.writeBytes dst p
        observed := obs } := by
  induction p generalizing s src dst with
  | nil =>
    have hs : s = { s with host := .copy src dst 0 :: rest } :=
      congrArg (fun l : List HostOp => ({ s with host := l } : State)) hhost
    exact ⟨s.observed, congrArg Host.Outcome.next hs⟩
  | cons b bs ih =>
    rw [List.length_cons] at hhost hsrc hdst hapart
    obtain ⟨hread, hbs⟩ := (s.mem.holds_cons src b bs).1 hholds
    have hround := core_run_copy_round hf hp hb (2 * bs.length) hhost (by omega) (by omega) hread
    obtain ⟨obs, hrun⟩ := ih (s := { s with host := _, mem := s.mem.write dst b, observed := _ }) hf hp hb rfl
      (show src + 1 + bs.length ≤ s.mem.size by omega) (show dst + 1 + bs.length ≤ s.mem.size by omega)
      (by omega) (hbs.write (by omega) b)
    refine ⟨obs, (hround.trans hrun).trans ?_⟩
    simp only [List.length_cons, Nat.add_assoc, Nat.add_comm 1]
    rfl

end

/-- Settles O49: the loop leaves memory as one write of all the bytes does. -/
theorem copyCopiesBytes : Obligations.CopyCopiesBytes := by
  intro p s src dst rest hf hp hb hhost hsrc hdst hapart hholds
  obtain ⟨obs, hrun⟩ := core_run_copy hf hp hb hhost hsrc hdst hapart hholds
  exact ⟨_, hrun, rfl, hp, hf, rfl, s.mem.writeBytes_holds dst p, s.mem.writeBytes_sameOutside dst p⟩

end Sys2Proof.Machine
end

section
/-! PROOFS. The frame decoder: the header's layout, the length branches, and what DECODE does on a region
whose bytes are known (40_frame_decoder.md). -/

namespace Sys2Proof.Machine

/-! ### The header unpacker (R110) -/

/-- Settles O6: a bit is its weight's digit of the byte, and the low bits are the remainder. -/
theorem unpackReadsTheHeaderLayout : Obligations.UnpackReadsTheHeaderLayout := by
  intro h0 h1 h
  have hbit (v : Byte) (i : Nat) : (v.getLsbD i).toNat = v.toNat / 2 ^ i % 2 := Nat.toNat_testBit v.toNat i
  have hlow (v : Byte) (n : Nat) : (v.extractLsb' 0 n).toNat = v.toNat % 2 ^ n := by simp
  have hh0 := h0.isLt
  have hh1 := h1.isLt
  simp only [h, unpack, hbit, hlow]
  omega

/-! ### The length decoder (R112, R113) -/

theorem be_lt (x : List Byte) : be x < 256 ^ x.length := by
  induction x with
  | nil => simp [be]
  | cons b bs ih =>
    have hb : b.toNat * 256 ^ bs.length ≤ 255 * 256 ^ bs.length := Nat.mul_le_mul_right _ (by omega)
    rw [be, List.length_cons, pow_succ]
    omega

theorem be_eq_sum (x : List Byte) :
    be x = ∑ i ∈ Finset.range x.length, (x.getD i 0#8).toNat * 256 ^ (x.length - 1 - i) := by
  induction x with
  | nil => rfl
  | cons b bs ih =>
    rw [be, ih, List.length_cons, Finset.sum_range_succ', Nat.add_comm]
    simp [Nat.sub_sub, Nat.add_comm]

theorem payloadLength_of_le {len7 : BitVec 7} (h : len7.toNat ≤ 125) (x : List Byte) :
    payloadLength len7 x = len7.toNat := if_pos h

theorem payloadLength_of_gt {len7 : BitVec 7} (h : 125 < len7.toNat) (x : List Byte) :
    payloadLength len7 x = be x := if_neg (by omega)

/-- The three branches of the length-field multiplexer (R112). -/
theorem extSize_cases (len7 : BitVec 7) :
    (len7.toNat ≤ 125 ∧ extSize len7 = 0) ∨ (len7.toNat = 126 ∧ extSize len7 = 2) ∨
      (len7.toNat = 127 ∧ extSize len7 = 8) := by
  have hlt := len7.isLt
  unfold extSize
  split_ifs <;> omega

/-- Settles O9: the multiplexer's branch fixes the number of extension bytes, whose big-endian value is the
length. -/
theorem lengthDecoderBranches : Obligations.LengthDecoderBranches := by
  intro len7 x hx
  obtain ⟨h7, he⟩ | ⟨h7, he⟩ | ⟨h7, he⟩ := extSize_cases len7
  · exact .inl ⟨h7, List.length_eq_zero_iff.1 (hx.trans he), payloadLength_of_le h7 x⟩
  · obtain ⟨x0, x1, rfl⟩ := List.length_eq_two.1 (hx.trans he)
    have hlt : be [x0, x1] < 256 ^ 2 := be_lt [x0, x1]
    rw [payloadLength_of_gt (by omega)]
    exact .inr (.inl ⟨h7, ⟨x0, x1, rfl, by simp [be]⟩, by omega⟩)
  · have h8 : x.length = 8 := hx.trans he
    have hlt := be_lt x
    have hsum := be_eq_sum x
    rw [h8] at hlt hsum
    rw [payloadLength_of_gt (by omega)]
    exact .inr (.inr ⟨h7, h8, hsum.trans (Finset.sum_range _), by omega⟩)

/-! ### The masking engine, byte by byte (41_masking_engine.md R140) -/

/-- `key[i mod 4]`. -/
theorem keyByte_ofNat (key : Key) (i : Nat) :
    keyByte key (Fin.ofNat 4 i) = [key.k0, key.k1, key.k2, key.k3].getD (i % 4) 0#8 := by
  have hall : ∀ r : Fin 4, keyByte key r = [key.k0, key.k1, key.k2, key.k3].getD r.val 0#8 := by
    intro r
    fin_cases r <;> rfl
  exact hall (Fin.ofNat 4 i)

/-- With the rolling index at `i`, the byte at `j` meets `key[(i + j) mod 4]`. -/
theorem getElem?_maskFrom (key : Key) (i : Nat) (s : List Byte) (j : Nat) :
    (maskFrom key (Fin.ofNat 4 i) s)[j]? = s[j]?.map (· ^^^ keyByte key (Fin.ofNat 4 (i + j))) := by
  induction s generalizing i j with
  | nil => simp [maskFrom]
  | cons x xs ih =>
    have hnext : Fin.ofNat 4 i + 1 = Fin.ofNat 4 (i + 1) := Fin.ext (by simp [Fin.val_add])
    cases j with
    | zero => rfl
    | succ j =>
      simp only [maskFrom, hnext, List.getElem?_cons_succ, ih, Nat.add_assoc, Nat.add_comm 1]

theorem getElem_xorMask (key : Key) (s : List Byte) (i : Nat) (hi : i < s.length) :
    (xorMask s key)[i]'(by simpa) = s[i] ^^^ [key.k0, key.k1, key.k2, key.k3].getD (i % 4) 0#8 := by
  have h := getElem?_maskFrom key 0 s i
  rw [List.getElem?_eq_getElem hi, Nat.zero_add, keyByte_ofNat] at h
  exact (List.getElem?_eq_some_iff.1 h).2

/-! ### Reads of cells that hold a value -/

theorem State.readingByte_of_read {s : State} {a : Nat} {b : Byte} (k : Byte → State)
    (h : s.mem.read a = some b) : s.readingByte a k = k b := by
  simp [State.readingByte, h]

theorem State.readingKey_of_holds {s : State} {a : Nat} {key : Key} (k : Key → State)
    (h : s.mem.holds a [key.k0, key.k1, key.k2, key.k3]) : s.readingKey a k = k key := by
  simp only [Memory.holds_cons, Nat.add_assoc, Nat.reduceAdd] at h
  obtain ⟨h0, h1, h2, h3, -⟩ := h
  rw [State.readingKey, State.readingByte_of_read _ h0, State.readingByte_of_read _ h1,
    State.readingByte_of_read _ h2, State.readingByte_of_read _ h3]

/-- A masked frame in memory, cut where DECODE's reads cut it. -/
theorem Memory.holds_maskedFrame (m : Memory) (b : Nat) (h0 h1 : Byte) (x : List Byte) (key : Key)
    (p : List Byte) :
    m.holds b ([h0, h1] ++ x ++ [key.k0, key.k1, key.k2, key.k3] ++ p) ↔
      m.holds b ([h0, h1] ++ x) ∧ m.holds (b + 2 + x.length) [key.k0, key.k1, key.k2, key.k3] ∧
      m.holds (b + (2 + x.length + 4)) p := by
  rw [m.holds_append, m.holds_append _ ([h0, h1] ++ x), and_assoc]
  simp only [List.length_append, List.length_cons, List.length_nil, Nat.add_assoc, Nat.reduceAdd]

/-! ### DECODE, stage by stage (R120) -/

theorem payloadOffset_of_mask {h : Header} (hm : h.mask = true) : payloadOffset h = 2 + extSize h.len7 + 4 := by
  simp [payloadOffset, keySize, hm]

theorem payloadOffset_of_no_mask {h : Header} (hm : h.mask = false) : payloadOffset h = 2 + extSize h.len7 := by
  simp [payloadOffset, keySize, hm]

theorem exec_decode (s : State) : exec .decode s = .next (decodeFrame s) := rfl

section
variable {s : State} {h0 h1 : Byte} {x : List Byte}

theorem decodeFrame_of_out_of_range (h : s.mem.size < s.regs.decBase.toNat + s.regs.decAvail.toNat) :
    decodeFrame s = s.decFail .range .none := if_neg (by simpa)

theorem decodeFrame_of_short (hr : s.mem.inRange s.regs.decBase.toNat s.regs.decAvail.toNat)
    (hn : s.regs.decAvail.toNat < 2) :
    decodeFrame s = s.decFail .truncated .hdr := by
  rw [decodeFrame, if_pos hr, if_pos hn]

theorem decodeFrame_of_header (hr : s.mem.inRange s.regs.decBase.toNat s.regs.decAvail.toNat)
    (hn : 2 ≤ s.regs.decAvail.toNat) (hh : s.mem.holds s.regs.decBase.toNat [h0, h1]) :
    decodeFrame s = s.decExtension h0 h1 := by
  simp only [Memory.holds_cons] at hh
  obtain ⟨hh0, hh1, -⟩ := hh
  rw [decodeFrame, if_pos hr, if_neg (Nat.not_lt.2 hn), State.readingByte_of_read _ hh0,
    State.readingByte_of_read _ hh1]

theorem State.decExtension_of_short (hn : s.regs.decAvail.toNat < 2 + extSize (unpack h0 h1).len7) :
    s.decExtension h0 h1 = s.decFail .truncated .ext := if_pos hn

theorem State.decExtension_of_holds (hn : 2 + extSize (unpack h0 h1).len7 ≤ s.regs.decAvail.toNat)
    (hx : x.length = extSize (unpack h0 h1).len7) (hh : s.mem.holds (s.regs.decBase.toNat + 2) x) :
    s.decExtension h0 h1 = s.decPayload h0 h1 (payloadLength (unpack h0 h1).len7 x) := by
  simp only [State.decExtension]
  rw [if_neg (Nat.not_lt.2 hn), State.readingBytes_of_holds _ hx hh]

/-- The header and the extension together: what is left of DECODE is its KEY check. -/
theorem decodeFrame_of_extension (hr : s.mem.inRange s.regs.decBase.toNat s.regs.decAvail.toNat)
    (hn : 2 + extSize (unpack h0 h1).len7 ≤ s.regs.decAvail.toNat) (hx : x.length = extSize (unpack h0 h1).len7)
    (hh : s.mem.holds s.regs.decBase.toNat ([h0, h1] ++ x)) :
    decodeFrame s = s.decPayload h0 h1 (payloadLength (unpack h0 h1).len7 x) := by
  obtain ⟨hhdr, hext⟩ := (s.mem.holds_append _ _ _).1 hh
  exact (decodeFrame_of_header hr (by omega) hhdr).trans (State.decExtension_of_holds hn hx hext)

variable {len : Nat}

/-- The KEY check; without a mask bit the EXT check has passed it (R124). -/
theorem State.decPayload_of_short (hn : s.regs.decAvail.toNat < payloadOffset (unpack h0 h1)) :
    s.decPayload h0 h1 len = s.decFail .truncated .key := if_pos hn

/-- Past the KEY check of a masked frame: the PAYLOAD check, then the payload. -/
theorem State.decPayload_of_key {key : Key} (hm : (unpack h0 h1).mask = true)
    (hn : payloadOffset (unpack h0 h1) ≤ s.regs.decAvail.toNat)
    (hk : s.mem.holds (s.regs.decBase.toNat + 2 + extSize (unpack h0 h1).len7) [key.k0, key.k1, key.k2, key.k3]) :
    s.decPayload h0 h1 len =
      if s.regs.decAvail.toNat - payloadOffset (unpack h0 h1) < len then s.decFail .truncated .payload
      else s.decMasked h0 h1 len key := by
  simp only [State.decPayload]
  rw [if_neg (Nat.not_lt.2 hn), if_pos hm, State.readingKey_of_holds _ hk]

/-- An unmasked frame has no key to check: the PAYLOAD check, then the results (R127). -/
theorem State.decPayload_of_no_mask (hm : (unpack h0 h1).mask = false)
    (hn : payloadOffset (unpack h0 h1) ≤ s.regs.decAvail.toNat) :
    s.decPayload h0 h1 len =
      if s.regs.decAvail.toNat - payloadOffset (unpack h0 h1) < len then s.decFail .truncated .payload
      else s.decDone h0 h1 len 0#64 := by
  simp only [State.decPayload]
  rw [if_neg (Nat.not_lt.2 hn), if_neg (by simp [hm])]

theorem State.decMasked_of_holds {p : List Byte} (key : Key)
    (hp : s.mem.holds (s.regs.decBase.toNat + payloadOffset (unpack h0 h1)) p) :
    s.decMasked h0 h1 p.length key = State.decDone
      { s with mem := s.mem.writeBytes (s.regs.decBase.toNat + payloadOffset (unpack h0 h1)) (xorMask p key) }
      h0 h1 p.length (keyRegister key) :=
  State.readingBytes_of_holds _ rfl hp

end

/-! ### The obligations about DECODE -/

/-- Settles O27: the stages up to the PAYLOAD check read the header and the extension, and no more. -/
theorem decodeAcceptsAnUnmaskedFrame : Obligations.DecodeAcceptsAnUnmaskedFrame := by
  intro s h0 h1 x
  dsimp only
  intro hr hm hx hn hh
  have hoff := (payloadOffset_of_no_mask hm).trans (by rw [← hx] : _ = 2 + x.length)
  rw [exec_decode, decodeFrame_of_extension hr (by omega) hx hh, State.decPayload_of_no_mask hm (by omega),
    if_neg (by omega), ← hoff]
  rfl

/-- Settles O28: each check is the first to fail after the stages before it have read their bytes, and
`decodeFailed` is the model's `State.decFail`. -/
theorem decodeReportsTheFirstFailingCheck : Obligations.DecodeReportsTheFirstFailingCheck := by
  intro s
  dsimp only
  simp only [exec_decode, Host.Outcome.next.injEq]
  refine ⟨fun hr => ?range, fun hr hn => ?hdr, fun h0 h1 x hr h2 hhdr => ?_⟩
  case range => exact decodeFrame_of_out_of_range hr
  case hdr => exact decodeFrame_of_short hr hn
  rw [decodeFrame_of_header hr h2 hhdr]
  refine ⟨fun hn => ?ext, fun hn hx hext => ?_⟩
  case ext => exact State.decExtension_of_short hn
  rw [State.decExtension_of_holds hn hx hext]
  refine ⟨fun hkey hm => ?key, fun key hkey hm hk hlen => ?payload, fun hm hlen => ?unmaskedPayload⟩
  case key =>
    have hoff := payloadOffset_of_mask hm
    exact State.decPayload_of_short (by omega)
  case payload =>
    have hoff := payloadOffset_of_mask hm
    exact (State.decPayload_of_key hm (by omega) (hx ▸ hk)).trans (if_pos (by omega))
  case unmaskedPayload =>
    have hoff := payloadOffset_of_no_mask hm
    exact (State.decPayload_of_no_mask hm (by omega)).trans (if_pos (by omega))

/-- Settles O26: every stage finds its bytes, and the payload is written back masked with the key. -/
theorem decodeUnmasksAMaskedFrame : Obligations.DecodeUnmasksAMaskedFrame := by
  intro s h0 h1 x key p
  dsimp only
  intro hr hm hx hlen hn hh
  have hoff := (payloadOffset_of_mask hm).trans (by rw [← hx] : _ = 2 + x.length + 4)
  obtain ⟨hhead, hk, hp⟩ := (s.mem.holds_maskedFrame _ h0 h1 x key p).1 hh
  rw [← hoff] at hp ⊢
  rw [exec_decode, decodeFrame_of_extension hr (by omega) hx hhead,
    State.decPayload_of_key hm (by omega) (hx ▸ hk), if_neg (by omega), ← hlen, State.decMasked_of_holds key hp]
  refine ⟨_, rfl, rfl, s.mem.writeBytes_size _ _, fun i hi => ?_, ?_⟩
  · rw [← getElem_xorMask key p i hi]
    exact s.mem.writeBytes_holds _ _ i (by simpa)
  · rw [← xorMask_length p key]
    exact s.mem.writeBytes_sameOutside _ _

end Sys2Proof.Machine
end

section
/-! PROOFS. The XOR masking engine as a function on bytes, and XORMASK on its region
(41_masking_engine.md). -/

namespace Sys2Proof.Machine

/-! ### The masking engine's laws (R142) -/

/-- The rolling index runs alike over the output, so each byte meets its key byte twice. -/
theorem maskFrom_maskFrom (key : Key) (i : Fin 4) (s : List Byte) :
    maskFrom key i (maskFrom key i s) = s := by
  induction s generalizing i with
  | nil => rfl
  | cons x xs ih => simp [maskFrom, ih]

@[simp] theorem xorMask_xorMask (key : Key) (s : List Byte) : xorMask (xorMask s key) key = s :=
  maskFrom_maskFrom key 0 s

theorem maskFrom_zeroKey (i : Fin 4) (s : List Byte) : maskFrom ⟨0#8, 0#8, 0#8, 0#8⟩ i s = s := by
  have hzero (j : Fin 4) : keyByte ⟨0#8, 0#8, 0#8, 0#8⟩ j = 0#8 := by fin_cases j <;> rfl
  induction s generalizing i with
  | nil => rfl
  | cons x xs ih => simp [maskFrom, ih, hzero]

theorem keyByte_rotateKey (key : Key) (r i : Fin 4) : keyByte (rotateKey key r) i = keyByte key (r + i) := by
  fin_cases i
  · exact congrArg (keyByte key) (add_zero r).symm
  all_goals rfl

/-- A rolling index `r` ahead is the key rotated by `r`. -/
theorem maskFrom_rotateKey (key : Key) (r i : Fin 4) (s : List Byte) :
    maskFrom (rotateKey key r) i s = maskFrom key (r + i) s := by
  induction s generalizing i with
  | nil => rfl
  | cons x xs ih => simp only [maskFrom, keyByte_rotateKey, ih, add_assoc]

theorem maskFrom_append (key : Key) (i : Nat) (xs ys : List Byte) :
    maskFrom key (Fin.ofNat 4 i) (xs ++ ys) =
      maskFrom key (Fin.ofNat 4 i) xs ++ maskFrom key (Fin.ofNat 4 (i + xs.length)) ys := by
  induction xs generalizing i with
  | nil => rfl
  | cons x xs ih =>
    have hnext : Fin.ofNat 4 i + 1 = Fin.ofNat 4 (i + 1) := Fin.ofNat_add i 1
    simp only [List.cons_append, maskFrom, hnext, ih, List.length_cons, Nat.add_assoc, Nat.add_comm 1]

theorem xorMask_append (key : Key) (xs ys : List Byte) :
    xorMask (xs ++ ys) key = xorMask xs key ++ xorMask ys (rotateKey key (Fin.ofNat 4 xs.length)) := by
  have h := maskFrom_append key 0 xs ys
  rwa [Nat.zero_add, ← add_zero (Fin.ofNat 4 xs.length), ← maskFrom_rotateKey] at h

/-- `rot(key, n mod 4)`, byte by byte. -/
theorem rotateKey_ofNat (key : Key) (n : Nat) :
    let k (i : Nat) : Byte := [key.k0, key.k1, key.k2, key.k3].getD (i % 4) 0#8
    rotateKey key (Fin.ofNat 4 n) = ⟨k (n % 4), k (n % 4 + 1), k (n % 4 + 2), k (n % 4 + 3)⟩ := by
  have hadd (j : Nat) : Fin.ofNat 4 n + Fin.ofNat 4 j = Fin.ofNat 4 (n % 4 + j) := Fin.add_ofNat _ j
  have hmod : Fin.ofNat 4 (n % 4) = Fin.ofNat 4 n := Fin.ext (Nat.mod_mod n 4)
  simp only [← keyByte_ofNat, ← hadd, hmod]
  rfl

/-- Settles O14: the engine keeps the length, and `getElem_xorMask` gives each byte. -/
theorem xorMaskIsBytewise : Obligations.XorMaskIsBytewise := fun s key =>
  ⟨xorMask_length s key, fun i hi => List.getElem?_eq_some_iff.2 ⟨by simpa, getElem_xorMask key s i hi⟩⟩

/-- Settles O15: each law follows the engine's run along the list. -/
theorem xorMaskIsItsOwnInverse : Obligations.XorMaskIsItsOwnInverse := by
  intro s s2 key
  dsimp only
  refine ⟨xorMask_xorMask key s, maskFrom_zeroKey 0 s, ?_⟩
  rw [xorMask_append, rotateKey_ofNat]

/-! ### Writing a region twice -/

/-- The second of two writes of equal length over one region is all that is read. -/
theorem Memory.read_writeBytes_writeBytes (m : Memory) (a x : Nat) {bs cs : List Byte}
    (h : bs.length = cs.length) :
    ((m.writeBytes a bs).writeBytes a cs).read x = (m.writeBytes a cs).read x := by
  simp only [Memory.read_writeBytes, h]
  split <;> rfl

/-- Writing what memory holds changes no cell. -/
theorem Memory.holds.read_writeBytes {m : Memory} {a : Nat} {bs : List Byte} (h : m.holds a bs) (x : Nat) :
    (m.writeBytes a bs).read x = m.read x := by
  rw [Memory.read_writeBytes]
  split
  case isTrue hx =>
    have hi : x - a < bs.length := by omega
    rw [List.getElem?_eq_getElem hi, ← h _ hi, Nat.add_sub_of_le hx.1]
  case isFalse => rfl

/-! ### XORMASK, branch by branch (R145) -/

theorem exec_xormask (s : State) : exec .xormask s = .next (xormaskRegion s) := rfl

section
variable {s : State} {p : List Byte}

theorem exec_xormask_of_holds (hr : xorBaseOf s + p.length ≤ s.mem.size) (hl : p.length = xorLenOf s)
    (hh : s.mem.holds (xorBaseOf s) p) :
    exec .xormask s = .next (s.ended { s.regs with status := s.finishedStatus 0#4 0#3 }
      (s.mem.writeBytes (xorBaseOf s) (xorMask p (xorKeyOf s)))) := by
  rw [exec_xormask, xormaskRegion, if_pos (hl ▸ hr), State.readingBytes_of_holds _ hl hh]
  rfl

theorem exec_xormask_of_out_of_range (h : s.mem.size < xorBaseOf s + xorLenOf s) :
    exec .xormask s = .next (s.ended { s.regs with status := s.finishedStatus 2#4 0#3 } s.mem) := by
  rw [exec_xormask, xormaskRegion, if_neg (Nat.not_le.2 h)]
  rfl

theorem exec_xormask_of_empty (hr : s.mem.inRange (xorBaseOf s) (xorLenOf s)) (hf : s.faults = [])
    (hl : p.length < xorLenOf s) (hh : s.mem.holds (xorBaseOf s) p)
    (hnone : s.mem.read (xorBaseOf s + p.length) = none) :
    exec .xormask s = .next { s with faults := [.uninit (xorBaseOf s + p.length)] } := by
  have hbefore (y : Nat) (hy : xorBaseOf s ≤ y) (hlt : y < xorBaseOf s + p.length) : s.mem.read y ≠ none := by
    have hi := hh (y - xorBaseOf s) (by omega)
    rw [Nat.add_sub_of_le hy] at hi
    simp [hi]
  rw [exec_xormask, xormaskRegion, if_pos hr, State.readingBytes_of_none _ (by omega) (by omega) hnone hbefore,
    State.recordFault_of_none _ hf]

end

/-! ### The obligations about XORMASK -/

/-- Settles O30: the region holds the masked bytes, and a write leaves every other cell. -/
theorem xormaskMasksItsRegion : Obligations.XormaskMasksItsRegion := by
  intro s p b hr hl hh
  refine ⟨_, exec_xormask_of_holds hr hl hh, rfl, s.mem.writeBytes_size _ _, fun i hi => ?_, ?_⟩
  · exact (s.mem.writeBytes_holds b _ i (by simpa)).trans
      (congrArg some (getElem_xorMask (xorKeyOf s) p i hi))
  · exact xorMask_length p (xorKeyOf s) ▸ s.mem.writeBytes_sameOutside b _

/-- Settles O31: RANGE is checked first; the read then stops at the first cell without a value. -/
theorem xormaskReportsRangeAndEmptyCells : Obligations.XormaskReportsRangeAndEmptyCells := fun _ =>
  ⟨exec_xormask_of_out_of_range, fun _ => exec_xormask_of_empty⟩

/-- Settles O32: the first run leaves the masked bytes on the region and the operands as they were, so the
second masks them back. -/
theorem xormaskTwiceRestoresMemory : Obligations.XormaskTwiceRestoresMemory := by
  intro s p hr hl hh
  have hlen := xorMask_length p (xorKeyOf s)
  refine ⟨_, _, exec_xormask_of_holds hr hl hh, exec_xormask_of_holds (p := xorMask p (xorKeyOf s))
    ?range ?length (s.mem.writeBytes_holds _ _), fun a => ?restored⟩
  case range => simpa [State.ended] using hr
  case length => exact hlen.trans hl
  case restored =>
    calc ((s.mem.writeBytes (xorBaseOf s) (xorMask p (xorKeyOf s))).writeBytes (xorBaseOf s)
            (xorMask (xorMask p (xorKeyOf s)) (xorKeyOf s))).read a
        = (s.mem.writeBytes (xorBaseOf s) p).read a := by
          rw [xorMask_xorMask, Memory.read_writeBytes_writeBytes _ _ _ hlen]
      _ = s.mem.read a := hh.read_writeBytes a

end Sys2Proof.Machine
end

section
/-! PROOFS. The frame encoder: the header packer, the length encoder, the payload multiplexer, ENCODE on its
regions, and the round trips through DECODE (42_frame_encoder.md). -/

namespace Sys2Proof.Machine

/-! ### The header packer (R160) -/

/-- The unpacker reads back the packer's fields, also where the mask bit is set (R175, the client's header). -/
theorem unpack_packByte0_append (fin : Bool) (opc : BitVec 4) (mask : Bool) (len7 : BitVec 7) :
    unpack (packByte0 fin opc) (BitVec.ofBool mask ++ len7) = ⟨fin, false, false, false, opc, mask, len7⟩ := by
  have hopc : (packByte0 fin opc).extractLsb' 0 4 = opc := BitVec.extractLsb'_append_eq_right
  have hlen7 : (BitVec.ofBool mask ++ len7).extractLsb' 0 7 = len7 := BitVec.extractLsb'_append_eq_right
  simp only [unpack, Header.mk.injEq]
  refine ⟨?_, ?_, ?_, ?_, hopc, ?_, hlen7⟩
  all_goals
    simp only [packByte0, BitVec.getLsbD_append]
    simp

@[simp] theorem unpack_pack (fin : Bool) (opc : BitVec 4) (len7 : BitVec 7) :
    unpack (packByte0 fin opc) (packByte1 len7) = ⟨fin, false, false, false, opc, false, len7⟩ :=
  unpack_packByte0_append fin opc false len7

/-- Settles O7: the fields are appended at their weights, and each is read back. -/
theorem packedHeaderUnpacks : Obligations.PackedHeaderUnpacks := by
  refine fun fin opc len7 => ⟨rfl, ?byte0, ?byte1, unpack_pack fin opc len7⟩
  case byte0 =>
    simp only [packByte0, toNat_append_eq_add, BitVec.toNat_ofBool, BitVec.toNat_zero]
    omega
  case byte1 =>
    simp only [packByte1, toNat_append_eq_add, BitVec.toNat_zero]
    omega

/-! ### The length encoder (R162, R163) -/

@[simp] theorem beBytes_length (n v : Nat) : (beBytes n v).length = n := by
  induction n with
  | zero => rfl
  | succ n ih => rw [beBytes, List.length_cons, ih]

theorem be_beBytes (n v : Nat) : be (beBytes n v) = v % 256 ^ n := by
  induction n with
  | zero => rw [beBytes, be, pow_zero, Nat.mod_one]
  | succ n ih =>
    rw [beBytes, be, ih, beBytes_length, BitVec.toNat_ofNat, Nat.mod_pow_succ (b := 256), Nat.mul_comm,
      Nat.add_comm]

theorem be_beBytes_of_lt {n v : Nat} (h : v < 256 ^ n) : be (beBytes n v) = v :=
  (be_beBytes n v).trans (Nat.mod_eq_of_lt h)

theorem encodeLength_of_le {len : Nat} (h : len ≤ 125) : encodeLength len = (BitVec.ofNat 7 len, []) :=
  if_pos h

theorem encodeLength_of_mid {len : Nat} (hlo : 126 ≤ len) (hhi : len ≤ 65535) :
    encodeLength len = (126#7, beBytes 2 len) := by
  rw [encodeLength, if_neg (by omega), if_pos hhi]

theorem encodeLength_of_ge {len : Nat} (h : 65536 ≤ len) : encodeLength len = (127#7, beBytes 8 len) := by
  rw [encodeLength, if_neg (by omega), if_neg (by omega)]

theorem encodeLength_extension_length (len : Nat) :
    (encodeLength len).2.length = if len ≤ 125 then 0 else if len ≤ 65535 then 2 else 8 := by
  unfold encodeLength
  split_ifs <;> rfl

/-- Settles O10: the branch's big-endian bytes hold the length, which fits them. -/
theorem lengthEncoderBranches : Obligations.LengthEncoderBranches := by
  refine fun len hlen => ⟨fun h => ?none, fun hlo hhi => ?two, fun h => ?eight⟩
  case none =>
    rw [encodeLength_of_le h]
    exact ⟨Nat.mod_eq_of_lt (by omega), rfl⟩
  case two =>
    rw [encodeLength_of_mid hlo hhi]
    exact ⟨rfl, rfl, be_beBytes_of_lt (by omega)⟩
  case eight =>
    rw [encodeLength_of_ge h]
    exact ⟨rfl, rfl, be_beBytes_of_lt (by omega)⟩

/-- Settles O11: the decoder takes the branch the encoder's length field names. -/
theorem lengthDecoderInvertsLengthEncoder : Obligations.LengthDecoderInvertsLengthEncoder := by
  intro len hlen
  obtain ⟨hnone, htwo, height⟩ := lengthEncoderBranches len hlen
  obtain h | h | h : len ≤ 125 ∨ (126 ≤ len ∧ len ≤ 65535) ∨ 65536 ≤ len := by omega
  · obtain ⟨h7, hx⟩ := hnone h
    rw [← h7] at h
    exact ⟨hx ▸ (if_pos h).symm, (payloadLength_of_le h _).trans h7⟩
  · obtain ⟨h7, hx, hbe⟩ := htwo h.1 h.2
    rw [h7]
    exact ⟨hx, hbe⟩
  · obtain ⟨h7, hx, hbe⟩ := height h
    rw [h7]
    exact ⟨hx, hbe⟩

/-- Settles O12: the decoder's branch bounds the length it reads, and that bound keeps the encoder's extension
as short. -/
theorem lengthEncodingIsShortest : Obligations.LengthEncodingIsShortest := by
  refine ⟨fun opc fin len => ⟨frameHead_length opc fin len, encodeLength_extension_length len⟩,
    fun len7 x hx => ?shortest, fun len hlo hhi => ?topBit, by decide, by decide, by decide⟩
  case shortest =>
    rw [encodeLength_extension_length]
    obtain ⟨h7, -, hlen⟩ | ⟨-, ⟨x0, x1, rfl, -⟩, hlen⟩ | ⟨-, h8, -⟩ := lengthDecoderBranches len7 x hx
    · rw [if_pos (by omega)]
      exact Nat.zero_le _
    · rw [if_pos hlen]
      split_ifs <;> simp
    · rw [h8]
      split_ifs <;> omega
  case topBit =>
    have htop : len / 256 ^ 7 < 2 ^ 7 := Nat.div_lt_of_lt_mul (by omega)
    refine ⟨_, _, congrArg Prod.snd (encodeLength_of_ge hlo), ?_⟩
    rw [BitVec.msb_eq_false_iff_two_mul_lt, BitVec.toNat_ofNat]
    generalize len / 256 ^ 7 = q at htop
    omega

/-! ### The payload multiplexer (R164) -/

@[simp] theorem frame_length (opc : BitVec 4) (fin : Bool) (p : List Byte) :
    (frame opc fin p).length = frameLength p.length := by
  rw [frame, List.length_append, frameHead_length]

/-- Settles O13: past the two header bytes the output is the extension, then the payload. -/
theorem payloadMultiplexerSelects : Obligations.PayloadMultiplexerSelects := by
  refine fun opc fin p j => ⟨frame_length opc fin p, ?_⟩
  match j with
  | 0 => rfl
  | 1 => rfl
  | j + 2 =>
    have hrest : (frame opc fin p)[j + 2]? = ((encodeLength p.length).2 ++ p)[j]? := rfl
    rw [hrest, List.getElem?_append, if_neg (by omega : ¬ j + 2 = 0), if_neg (by omega : ¬ j + 2 = 1)]
    simp only [Nat.add_comm 2, Nat.add_lt_add_iff_right, Nat.add_sub_cancel]

/-! ### ENCODE, branch by branch (R170, R171) -/

theorem exec_encode (fopc : BitVec 4) (fin : Bool) (s : State) :
    exec (.encode fopc fin) s = .next (encodeFrame fopc fin s) := rfl

section
variable {s : State} {fopc : BitVec 4} {fin : Bool}

theorem encodeFrame_of_out_of_range
    (h : s.mem.size < encSrcOf s + encLenOf s ∨ s.mem.size < encDstOf s + encCapOf s) :
    encodeFrame fopc fin s = s.encFail .range := if_neg (by omega)

variable (hsrc : s.mem.inRange (encSrcOf s) (encLenOf s)) (hdst : s.mem.inRange (encDstOf s) (encCapOf s))
include hsrc hdst

theorem encodeFrame_of_small (hcap : encCapOf s < frameLength (encLenOf s)) :
    encodeFrame fopc fin s = s.encFail .capacity := by
  rw [encodeFrame, if_pos ⟨hsrc, hdst⟩, if_pos hcap]

variable (hcap : frameLength (encLenOf s) ≤ encCapOf s)
include hcap

theorem encodeFrame_of_overlap
    (h : encOverlaps (encSrcOf s) (encLenOf s) (encDstOf s) (frameLength (encLenOf s))) :
    encodeFrame fopc fin s = s.encFail .overlap := by
  rw [encodeFrame, if_pos ⟨hsrc, hdst⟩, if_neg (Nat.not_lt.2 hcap), if_pos h]

theorem encodeFrame_of_holds {p : List Byte} (hl : p.length = encLenOf s)
    (hapart : ¬ encOverlaps (encSrcOf s) (encLenOf s) (encDstOf s) (frameLength (encLenOf s)))
    (hh : s.mem.holds (encSrcOf s) p) :
    encodeFrame fopc fin s = State.encDone
      { s with mem := s.mem.writeBytes (encDstOf s) (frame fopc fin p) } (frameLength p.length) := by
  rw [encodeFrame, if_pos ⟨hsrc, hdst⟩, if_neg (Nat.not_lt.2 hcap), if_neg hapart,
    State.readingBytes_of_holds _ hl hh, ← hl]
  rfl

end

/-- Settles O34: `failed` is the model's `State.encFail`, and each check is the first to fail after those
before it have passed. -/
theorem encodeReportsTheFirstFailingCheck : Obligations.EncodeReportsTheFirstFailingCheck := by
  intro s fopc fin
  dsimp only
  simp only [exec_encode, Host.Outcome.next.injEq]
  exact ⟨encodeFrame_of_out_of_range, encodeFrame_of_small,
    fun hsrc hdst hcap hpos h1 h2 => encodeFrame_of_overlap hsrc hdst hcap ⟨hpos, h1, h2⟩⟩

/-- Settles O33: a source clear of the frame is no overlap, and a write leaves every other cell. -/
theorem encodeBuildsTheFrame : Obligations.EncodeBuildsTheFrame := by
  intro s fopc fin p
  dsimp only
  intro (hl : p.length = encLenOf s) hsrc hdst hcap hapart hh
  have hclear : ¬ encOverlaps (encSrcOf s) (encLenOf s) (encDstOf s) (frameLength (encLenOf s)) := by
    rw [← hl]
    rintro ⟨hpos, h1, h2⟩
    obtain rfl | hbelow | habove := hapart
    · exact absurd hpos (Nat.lt_irrefl 0)
    · exact absurd h1 (Nat.not_lt.2 hbelow)
    · exact absurd h2 (Nat.not_lt.2 habove)
  rw [hl] at hsrc hcap
  rw [exec_encode, encodeFrame_of_holds hsrc hdst hcap hl hclear hh]
  refine ⟨_, rfl, rfl, s.mem.writeBytes_size _ _, s.mem.writeBytes_holds _ _, ?_⟩
  have hframe := s.mem.writeBytes_sameOutside (encDstOf s) (frame fopc fin p)
  rwa [frame_length] at hframe

/-! ### What DECODE reads of an encoded header -/

theorem decHdrWord_headerBytes (f : HeaderFlags) (h0 h1 : Byte) :
    (decHdrWord f h0 h1).extractLsb' 0 16 = h0 ++ h1 := by
  have hassoc : decHdrWord f h0 h1 = (0#45 ++ BitVec.ofBool f.malformed ++ BitVec.ofBool f.opcUnsup ++
      BitVec.ofBool f.rsvNz) ++ (h0 ++ h1) := BitVec.append_assoc
  rw [hassoc]
  exact BitVec.extractLsb'_append_eq_right

theorem decHdrWord_getLsbD (f : HeaderFlags) (h0 h1 : Byte) {i : Nat} (hi : i < 16) :
    (decHdrWord f h0 h1).getLsbD i = if i < 8 then h1.getLsbD i else h0.getLsbD (i - 8) := by
  simp only [decHdrWord, BitVec.getLsbD_append]
  rw [if_pos (by omega : i - 8 < 8)]

/-- DEC_HDR holds the header's fields at the bits 10_state.md R36 gives. -/
theorem decHdrWord_fields (f : HeaderFlags) (h0 h1 : Byte) :
    (decHdrWord f h0 h1).extractLsb' 8 4 = (unpack h0 h1).opc ∧
    (decHdrWord f h0 h1).getLsbD 15 = (unpack h0 h1).fin ∧
    (decHdrWord f h0 h1).getLsbD 7 = (unpack h0 h1).mask := by
  refine ⟨BitVec.eq_of_getLsbD_eq fun i hi => ?_, decHdrWord_getLsbD f h0 h1 (by omega : 15 < 16),
    decHdrWord_getLsbD f h0 h1 (by omega : 7 < 16)⟩
  rw [unpack, BitVec.getLsbD_extractLsb', BitVec.getLsbD_extractLsb', decHdrWord_getLsbD f h0 h1 (by omega),
    if_neg (by omega), Nat.add_sub_cancel_left, Nat.zero_add]

/-! ### The round trips (R175) -/

theorem State.finishedStatus_err (s : State) (err : BitVec 4) (stage : BitVec 3) :
    (statusFields (s.finishedStatus err stage)).err = err := by
  rw [State.finishedStatus, statusFields_statusWord]

/-- Memory holds one sequence of a given length at an address. -/
theorem Memory.holds_unique {m : Memory} {a : Nat} {xs ys : List Byte} (hl : xs.length = ys.length)
    (hx : m.holds a xs) (hy : m.holds a ys) : xs = ys :=
  List.ext_getElem hl fun i hix hiy => Option.some.inj ((hx i hix).symm.trans (hy i hiy))

theorem State.encFail_err_ne_zero (s : State) {c : ErrorCode} (hc : c = .range ∨ c = .capacity ∨ c = .overlap) :
    (statusFields (s.encFail c).regs.status).err ≠ 0#4 := by
  rcases hc with rfl | rfl | rfl <;> simp [State.encFail, errorBits]

/-- An ENCODE that finished OK has written its frame. -/
theorem encodeFrame_mem_of_ok {s : State} {fopc : BitVec 4} {fin : Bool} {p : List Byte}
    (hl : p.length = encLenOf s) (hh : s.mem.holds (encSrcOf s) p) (hp : s.pending ≠ none)
    (hok : (statusFields (encodeFrame fopc fin s).regs.status).err = 0#4)
    (hend : (encodeFrame fopc fin s).pending = none) :
    (encodeFrame fopc fin s).mem = s.mem.writeBytes (encDstOf s) (frame fopc fin p) := by
  obtain ⟨c, hc, he⟩ | ⟨bs, hbl, hbs, -, -, he⟩ | ⟨x, -, he⟩ := encodeFrame_cases fopc fin s
  · rw [he] at hok
    exact absurd hok (s.encFail_err_ne_zero hc)
  · obtain rfl : bs = p := Memory.holds_unique (hbl.trans hl.symm) hbs hh
    rw [he, frame, hl]
    rfl
  · rw [he] at hend
    exact absurd hend hp

/-- Settles O36: memory holds the frame, whose header and length DECODE reads back. -/
theorem encodedFrameDecodes : Obligations.EncodedFrameDecodes := by
  intro s s' fopc fin p t
  dsimp only
  intro hl hh ht hok hend hp hmem hbase hn hr
  obtain rfl : encodeFrame fopc fin s = t := Host.Outcome.next.inj ht
  have hlt : p.length < 2 ^ 64 := hl ▸ s.regs.encLen.isLt
  have havail := s'.regs.decAvail.isLt
  obtain ⟨hext, hlen⟩ := lengthDecoderInvertsLengthEncoder p.length hlt
  have hframe : s'.mem.holds s.regs.encDst.toNat (frame fopc fin p) := by
    rw [hmem, encodeFrame_mem_of_ok hl hh hp hok hend]
    exact s.mem.writeBytes_holds _ _
  obtain ⟨hhead, hpay⟩ := (s'.mem.holds_append _ _ _).1 hframe
  rw [frameHead_length] at hpay
  have hdec := decodeAcceptsAnUnmaskedFrame s' (packByte0 fin fopc) (packByte1 (encodeLength p.length).1)
    (encodeLength p.length).2
  simp only [unpack_pack, hlen, hbase] at hdec
  obtain ⟨hopc, hfin, hmask⟩ := decHdrWord_fields (headerFlags false false false fopc) (packByte0 fin fopc)
    (packByte1 (encodeLength p.length).1)
  rw [unpack_pack] at hopc hfin hmask
  have hpoff : (BitVec.ofNat 64 (2 + (encodeLength p.length).2.length)).toNat =
      2 + (encodeLength p.length).2.length := Nat.mod_eq_of_lt (by omega)
  exact ⟨_, hdec hr trivial hext hn hhead, s'.finishedStatus_err 0#4 0#3, rfl, rfl,
    decHdrWord_headerBytes _ _ _, hopc, hfin, hmask, Nat.mod_eq_of_lt hlt, hpoff, hpoff.symm ▸ hpay⟩

/-- A write of bytes outside the bytes leaves them where they are. -/
theorem Memory.holds.writeBytes {m : Memory} {a x : Nat} {bs cs : List Byte} (h : m.holds a bs)
    (hx : x + cs.length ≤ a ∨ a + bs.length ≤ x) : (m.writeBytes x cs).holds a bs := fun i hi => by
  rw [m.writeBytes_sameOutside x cs (a + i) (by omega)]
  exact h i hi

/-- XORMASK of the payload behind `head` masks the payload and leaves `head`. -/
theorem exec_xormask_of_payload {s : State} {b : Nat} {head p : List Byte} {key : Key}
    (hr : b + head.length + p.length ≤ s.mem.size) (hh : s.mem.holds b (head ++ p))
    (hbase : xorBaseOf s = b + head.length) (hlen : xorLenOf s = p.length) (hkey : s.regs.xorKey = keyRegister key) :
    ∃ t, exec .xormask s = .next t ∧ (statusFields t.regs.status).err = 0#4 ∧
      t.mem.holds b (head ++ xorMask p key) := by
  obtain ⟨hhead, hp⟩ := (s.mem.holds_append b head p).1 hh
  have hk : xorKeyOf s = key := by rw [xorKeyOf, hkey, keyOfRegister_keyRegister]
  rw [← hbase] at hr hp
  refine ⟨_, exec_xormask_of_holds hr hlen.symm hp, s.finishedStatus_err 0#4 0#3, ?_⟩
  rw [hk, hbase]
  exact (Memory.holds_append _ b head _).2 ⟨hhead.writeBytes (.inr le_rfl), s.mem.writeBytes_holds _ _⟩

/-- Settles O37: DECODE masks the payload that XORMASK masked with the same key. -/
theorem maskedClientFrameRoundTrips : Obligations.MaskedClientFrameRoundTrips := by
  intro s b opc fin key p
  dsimp only
  intro hlt hr hh hbase hlen hkey
  obtain ⟨hext, hplen⟩ := lengthDecoderInvertsLengthEncoder p.length hlt
  have hunpack : unpack (packByte0 fin opc) (1#1 ++ (encodeLength p.length).1) = _ :=
    unpack_packByte0_append fin opc true _
  have hhead : ([packByte0 fin opc, 1#1 ++ (encodeLength p.length).1] ++ (encodeLength p.length).2 ++
      [key.k0, key.k1, key.k2, key.k3]).length = 2 + (encodeLength p.length).2.length + 4 := by
    simp only [List.length_append, List.length_cons, List.length_nil]
  rw [← hhead] at hr hbase
  obtain ⟨t, ht, hok, hmasked⟩ := exec_xormask_of_payload hr hh hbase hlen hkey
  refine ⟨t, ht, hok, fun s' hmem hdec hn hrange => ?_⟩
  have havail := s'.regs.decAvail.isLt
  have hdecode := decodeUnmasksAMaskedFrame s' (packByte0 fin opc) (1#1 ++ (encodeLength p.length).1)
    (encodeLength p.length).2 key (xorMask p key)
  simp only [hunpack, hdec, xorMask_length, hplen] at hdecode
  obtain ⟨u, hu, hregs, -, hpay, -⟩ := hdecode hrange trivial hext trivial hn (hmem ▸ hmasked)
  refine ⟨u, hu, ?err, ?plen, ?poff, ?key, fun i hi => ?payload⟩
  case err =>
    rw [hregs]
    exact s'.finishedStatus_err 0#4 0#3
  case plen =>
    rw [hregs]
    exact Nat.mod_eq_of_lt hlt
  case poff =>
    rw [hregs]
    exact Nat.mod_eq_of_lt (by omega)
  case key =>
    rw [hregs]
    rfl
  case payload =>
    have hi' : i < (xorMask p key).length := by rwa [xorMask_length]
    rw [hpay i hi, ← getElem_xorMask key _ i hi']
    simp only [xorMask_xorMask]

end Sys2Proof.Machine
end

section
/-! PROOFS. The host's transactions, each by what BUSY, the address and the register number decide
(43_host_transactions.md R191-R195). -/

namespace Sys2Proof.Machine

/-! ### Recorded faults and the busy hazard -/

theorem onlyRecords_recordFault (k : Fault) (s : State) : onlyRecords k s (s.recordFault k) :=
  ⟨rfl, s.mem_recordFault k, fun hf => by rw [State.recordFault_of_none k hf]⟩

theorem State.unlessBusy_of_busy {s : State} (h : s.busy = true) (t : State) :
    s.unlessBusy t = s.recordFault .hazard := if_pos h

theorem State.unlessBusy_of_idle {s : State} (h : s.busy = false) (t : State) : s.unlessBusy t = t :=
  if_neg (by simp [h])

/-- A transaction that `unlessBusy` guards records HAZARD while BUSY (70_reset_and_hazards.md R245). -/
theorem hazard_of_unlessBusy {s t : State} {o : Host.Outcome State Fault Refusal}
    (ho : o = .next (s.unlessBusy t)) (h : s.busy = true) : ∃ u, o = .next u ∧ onlyRecords .hazard s u :=
  ⟨_, ho.trans (by rw [State.unlessBusy_of_busy h]), onlyRecords_recordFault .hazard s⟩

/-! ### RegRead (R191) -/

theorem Regs.readNumber_regNumOf (g : Regs) (n : RegName) :
    g.readNumber (regNumOf n) = g.get n &&& implementedBits n := by
  simp [Regs.readNumber]

theorem Regs.readNumber_unmapped (g : Regs) {r : RegNum} (h : ∀ n, regNumOf n ≠ r) : g.readNumber r = 0#64 := by
  simp [Regs.readNumber, (regNameOf_eq_none_iff r).2 h]

theorem readRegister_of_allowed {s : State} {r : RegNum} (h : s.busy = false ∨ r = regNumOf .status) :
    readRegister r s = s.observe (.register r (s.regs.readNumber r)) := by
  refine if_neg fun ⟨hbusy, hr⟩ => ?_
  rcases h with hidle | hstatus
  · simp [hidle] at hbusy
  · exact hr hstatus

theorem readRegister_of_hazard {s : State} {r : RegNum} (hb : s.busy = true) (hr : r ≠ regNumOf .status) :
    readRegister r s = s.recordFault .hazard := if_pos ⟨hb, hr⟩

theorem exec_rd (r : RegNum) (s : State) : exec (.rd r) s = .next (readRegister r s) := rfl

/-- Settles O20: the read is allowed or a hazard, and the number is a register's or unmapped. -/
theorem regReadReturnsTheRegister : Obligations.RegReadReturnsTheRegister := by
  refine fun s r => ⟨fun hallowed => ⟨s.regs.readNumber r, ?read, ?mapped, s.regs.readNumber_unmapped⟩,
    fun hb hr => ?busy⟩
  case read => rw [exec_rd, readRegister_of_allowed hallowed]; rfl
  case mapped => rintro n rfl; exact s.regs.readNumber_regNumOf n
  case busy =>
    exact ⟨_, congrArg Host.Outcome.next (readRegister_of_hazard hb hr), onlyRecords_recordFault .hazard s⟩

/-! ### RegWrite (R192) -/

theorem regNumOf_inj {n m : RegName} : regNumOf n = regNumOf m ↔ n = m := by
  refine ⟨fun h => ?_, congrArg regNumOf⟩
  simpa using congrArg regNameOf h

theorem State.writeRegister_unmapped (s : State) {r : RegNum} (v : Word) (h : ∀ n, regNumOf n ≠ r) :
    s.writeRegister r v = s := by
  simp [State.writeRegister, (regNameOf_eq_none_iff r).2 h]

@[simp] theorem Regs.set_get (g : Regs) (n : RegName) : g.set n (g.get n) = g := by
  cases n <;> rfl

/-- What register `n` holds after a host write of `v` to it, by its access type (10_state.md R25). CMD's writes
are command issues and not meant here. -/
def Regs.written (g : Regs) (n : RegName) (v : Word) : Word :=
  match regAccess n with
  | .rw => v
  | .rwWarl => v &&& implementedBits n
  | .ro => g.get n
  | .cmd => g.get n

theorem State.writeRegister_regNumOf (s : State) {n : RegName} (v : Word) (hn : n ≠ .cmd) :
    s.writeRegister (regNumOf n) v = { s with regs := s.regs.set n (s.regs.written n v) } := by
  have hacc : regAccess n ≠ .cmd := by
    revert hn
    cases n <;> decide
  cases h : regAccess n with
  | rw => simp [State.writeRegister, Regs.written, h]
  | rwWarl => simp [State.writeRegister, Regs.written, h]
  | ro => simp [State.writeRegister, Regs.written, h]
  | cmd => exact absurd h hacc

/-- A write of a number other than CMD's changes at most the register of that number. -/
theorem State.writeRegister_spec (s : State) {r : RegNum} (v : Word) (hr : r ≠ regNumOf .cmd) :
    s.writeRegister r v = { s with regs := (s.writeRegister r v).regs } ∧
    ∀ n, (s.writeRegister r v).regs.get n = if regNumOf n = r then s.regs.written n v else s.regs.get n := by
  by_cases hmapped : ∃ m, regNumOf m = r
  · obtain ⟨m, rfl⟩ := hmapped
    rw [s.writeRegister_regNumOf v fun h => hr (congrArg regNumOf h)]
    refine ⟨rfl, fun n => (Regs.get_set ..).trans ?_⟩
    simp only [regNumOf_inj]
    split
    · next h => rw [h]
    · rfl
  · have hunmapped : ∀ n, regNumOf n ≠ r := not_exists.1 hmapped
    rw [s.writeRegister_unmapped v hunmapped]
    exact ⟨rfl, fun n => (if_neg (hunmapped n)).symm⟩

/-- Settles O21: the write by the number's access type, or the hazard. -/
theorem regWriteFollowsTheAccessType : Obligations.RegWriteFollowsTheAccessType := by
  refine fun s r v hr => ⟨fun hidle => ?_, hazard_of_unlessBusy rfl⟩
  have hexec : exec (.wr r v) s = .next (s.writeRegister r v) :=
    congrArg Host.Outcome.next (State.unlessBusy_of_idle hidle _)
  exact ⟨_, hexec, s.writeRegister_spec v hr⟩

/-! ### Command issue (R193) -/

theorem exec_wrCmd_of_idle {s : State} (h : s.busy = false) (w : Word) : exec (.wrCmd w) s = .next (s.issue w) :=
  congrArg Host.Outcome.next (State.unlessBusy_of_idle h _)

/-- Settles O22: `issue` writes CMD, STATUS and pending, whatever the word. -/
theorem commandIssueWritesStatusAndPending : Obligations.CommandIssueWritesStatusAndPending := by
  refine fun s w => ⟨fun hidle => ⟨s.issue w, exec_wrCmd_of_idle hidle w, rfl, rfl, ?status, ?others⟩,
    hazard_of_unlessBusy rfl⟩
  case status => exact statusFields_statusWord _
  case others =>
    intro n hcmd hstatus
    by_contra hne
    exact (State.issue_regs_get_ne hne).elim hcmd hstatus

/-! ### MemRead and MemWrite (R194, R195) -/

section
variable {s : State} {a : Nat}

theorem exec_mrd_of_lt (ha : a < s.mem.size) : exec (.mrd a) s = .next (s.unlessBusy (readCell a s)) := if_pos ha

theorem exec_mwr_of_lt (b : Byte) (ha : a < s.mem.size) :
    exec (.mwr a b) s = .next (s.unlessBusy { s with mem := s.mem.write a b }) := if_pos ha

theorem exec_mrd_of_outside (ha : s.mem.size ≤ a) : exec (.mrd a) s = .refused (.addressOutsideMemory a) :=
  if_neg (Nat.not_lt.2 ha)

theorem exec_mwr_of_outside (b : Byte) (ha : s.mem.size ≤ a) :
    exec (.mwr a b) s = .refused (.addressOutsideMemory a) := if_neg (Nat.not_lt.2 ha)

theorem exec_mrd_of_empty (hidle : s.busy = false) (ha : a < s.mem.size) (hnone : s.mem.read a = none) :
    exec (.mrd a) s = .next (s.recordFault (.uninit a)) := by
  rw [exec_mrd_of_lt ha, State.unlessBusy_of_idle hidle]
  simp [readCell, State.readingByte, hnone]

end

/-! ### The program's check (R194) -/

theorem mrd_not_wellFormed {size a : Nat} (h : size ≤ a) : (Instr.mrd a).wellFormed size = false :=
  decide_eq_false (Nat.not_lt.2 h)

theorem mwr_not_wellFormed {size a : Nat} (b : Byte) (h : size ≤ a) :
    (Instr.mwr a b).wellFormed size = false := decide_eq_false (Nat.not_lt.2 h)

/-- One ill-formed item fails the whole program. -/
theorem hostProgramWellFormed_of_mem {size : Nat} {p : List HostOp} {op : HostOp} (hop : op ∈ p)
    (h : hostOpWellFormed size op = false) : hostProgramWellFormed size p = false :=
  List.all_eq_false.2 ⟨op, hop, by simp [h]⟩

theorem hostOpWellFormed_txn {t : BusTuple} {i : Instr} (h : decodeBus t = .ok i) (size : Nat) :
    hostOpWellFormed size (.txn t) = i.wellFormed size := by
  simp [hostOpWellFormed, h]

theorem hostOpWellFormed_copy_iff {size src dst n : Nat} :
    hostOpWellFormed size (.copy src dst n) = true ↔ n = 0 ∨ (src + n ≤ size ∧ dst + n ≤ size) := by
  simp [hostOpWellFormed]

/-- A `copy` that comes to an address at or above MEM_SIZE is ill-formed. -/
theorem hostOpWellFormed_copy_outside {size src dst n a : Nat} (ha : size ≤ a)
    (h : (src ≤ a ∧ a < src + n) ∨ (dst ≤ a ∧ a < dst + n)) :
    hostOpWellFormed size (.copy src dst n) = false := by
  rw [← Bool.not_eq_true, hostOpWellFormed_copy_iff]
  omega

theorem HostProgram.not_wellFormed_of_sends {P : HostProgram} {n size : Nat} {obs : List Observed} {t : BusTuple}
    {i : Instr} (hsend : P n obs = some t) (ht : decodeBus t = .ok i) (hi : i.wellFormed size = false) :
    ¬ P.wellFormed size := by
  intro hwf
  obtain ⟨j, hj, hjwf⟩ := hwf n obs t hsend
  obtain rfl : i = j := Except.ok.inj (ht.symm.trans hj)
  simp [hi] at hjwf

/-- Settles O23: the cell's byte, an empty cell, the hazard, and an address that is no transaction's. -/
theorem memReadReturnsTheByte : Obligations.MemReadReturnsTheByte := by
  refine fun s a => ⟨fun hidle ha b => exec_mrd_of_read hidle ha, fun hidle ha hnone => ?empty,
    fun hbusy ha => hazard_of_unlessBusy (exec_mrd_of_lt ha) hbusy, fun ha => ?outside⟩
  case empty => exact ⟨_, exec_mrd_of_empty hidle ha hnone, onlyRecords_recordFault _ s⟩
  case outside =>
    have hill := mrd_not_wellFormed ha
    exact ⟨fun p hp => hostProgramWellFormed_of_mem hp ((hostOpWellFormed_txn (decodeBus_mrd a) _).trans hill),
      fun p src dst n hp h1 h2 =>
        hostProgramWellFormed_of_mem hp (hostOpWellFormed_copy_outside ha (.inl ⟨h1, h2⟩)),
      fun P n obs hsend => HostProgram.not_wellFormed_of_sends hsend (decodeBus_mrd a) hill,
      exec_mrd_of_outside ha⟩

/-- Settles O24: the one cell written, the hazard, and an address that is no transaction's. -/
theorem memWriteWritesOneCell : Obligations.MemWriteWritesOneCell := by
  refine fun s a b => ⟨fun hidle ha => ?written,
    fun hbusy ha => hazard_of_unlessBusy (exec_mwr_of_lt b ha) hbusy, fun ha => ?outside⟩
  case written =>
    exact ⟨_, exec_mwr_of_idle b hidle ha, rfl, s.mem.write_size a b, s.mem.read_write_same a b,
      fun x hx => s.mem.read_write_other b hx⟩
  case outside =>
    have hill := mwr_not_wellFormed b ha
    exact ⟨fun p hp => hostProgramWellFormed_of_mem hp ((hostOpWellFormed_txn (decodeBus_mwr a b) _).trans hill),
      fun p src dst n hp h1 h2 =>
        hostProgramWellFormed_of_mem hp (hostOpWellFormed_copy_outside ha (.inr ⟨h1, h2⟩)),
      fun P n obs hsend => HostProgram.not_wellFormed_of_sends hsend (decodeBus_mwr a b) hill,
      exec_mwr_of_outside b ha⟩

end Sys2Proof.Machine
end

section
/-! PROOFS. The host's turn, and the states in which nobody has one (43_host_transactions.md R190, R197). -/

namespace Sys2Proof.Machine

theorem State.mover_eq_none_iff (s : State) :
    s.mover = none ↔ s.engineEnabled = false ∧ s.hostEnabled = false := by
  unfold State.mover
  cases s.engineEnabled <;> cases s.hostEnabled <;> simp

theorem State.mover_of_faulted {s : State} (h : s.faults ≠ []) : s.mover = none :=
  s.mover_eq_none_iff.2 ⟨by simp [State.engineEnabled, h], by simp [State.hostEnabled, h]⟩

theorem State.faults_of_mover {s : State} {a : Agent} (h : s.mover = some a) : s.faults = [] := by
  by_contra hf
  simp [State.mover_of_faulted hf] at h

/-- Settles O39: the host's turn is `hostStep`, whose two arms are the two clauses. -/
theorem stepRunsTheNextTransaction : Obligations.StepRunsTheNextTransaction := by
  intro s t rest hm hn
  have hf := State.faults_of_mover hm
  refine ⟨s.takeTurn_eq, fun i hi => step_of_host_turn hf hm hn hi, fun e he => ?_⟩
  simp [step, hf, hm, hn, hostStep, he]

theorem State.final_iff (s : State) :
    s.final = true ↔ s.nextTransaction = none ∧ s.pending = none ∧ s.faults = [] := by
  simp [State.final, and_assoc]

/-- Without a recorded fault, what keeps the agents from moving is that there is nothing to do. -/
theorem State.final_iff_mover (s : State) : s.final = true ↔ s.mover = none ∧ s.faults = [] := by
  rw [s.final_iff, s.mover_eq_none_iff, ← Bool.not_eq_true, ← Bool.not_eq_true, s.engineEnabled_iff,
    s.hostEnabled_iff]
  tauto

theorem step_of_mover_none {s : State} (hm : s.mover = none) (hf : s.faults = []) : step s = .next s := by
  simp [step, hf, hm]

/-- Settles O47: `final` asks that nobody has anything to do and no fault is recorded. -/
theorem finalStateIsIdle : Obligations.FinalStateIsIdle := fun s =>
  ⟨s.final_iff, s.final_iff_mover, fun h =>
    have ⟨hm, hf⟩ := s.final_iff_mover.1 h
    step_of_mover_none hm hf⟩

end Sys2Proof.Machine
end

section
/-! PROOFS. One step of a run, and the end of every run of a finite program (43_host_transactions.md R190,
R197, 70_reset_and_hazards.md R250). -/

namespace Sys2Proof.Machine

variable {P : HostProgram} {a b : Agent} {c : Play}

/-! ### Who moves -/

theorem Play.mover_of_named (h : c.enabled P a = true) : c.mover P a = some a := if_pos h

theorem Play.mover_of_other (hne : b ≠ a) (ha : c.enabled P a = false) (hb : c.enabled P b = true) :
    c.mover P a = some b := by
  cases a <;> cases b <;> simp_all [Play.mover]

theorem Play.mover_eq_none_iff : c.mover P a = none ↔ ∀ b, c.enabled P b = false := by
  refine ⟨fun h b => ?_, Play.mover_none⟩
  by_contra hb
  obtain ⟨b', hb'⟩ := Play.mover_isSome (a := a) (Bool.eq_true_of_not_eq_false hb)
  simp [h] at hb'

theorem Play.final_iff :
    c.final P = true ↔ c.transaction P = none ∧ c.state.pending = none ∧ c.state.faults = [] := by
  simp [Play.final, and_assoc]

/-- A point at which no agent can step: the run is final or has recorded a fault. -/
def Play.ended (P : HostProgram) (c : Play) : Prop := c.final P = true ∨ c.state.faults ≠ []

theorem Play.forall_enabled_iff :
    (∀ b, c.enabled P b = false) ↔ ¬ c.enabled P .host = true ∧ ¬ c.enabled P .engine = true := by
  simp only [Bool.not_eq_true]
  exact ⟨fun h => ⟨h .host, h .engine⟩, fun ⟨hh, he⟩ b => by cases b <;> assumption⟩

/-- Nobody can step where there is nothing to do, or a fault stops both. -/
theorem Play.ended_iff : c.ended P ↔ ∀ b, c.enabled P b = false := by
  rw [Play.forall_enabled_iff, Play.enabled_engine, Play.enabled_host, Play.ended, Play.final_iff,
    ← Option.ne_none_iff_exists']
  tauto

theorem Play.mover_eq_none_iff_ended : c.mover P a = none ↔ c.ended P :=
  Play.mover_eq_none_iff.trans Play.ended_iff.symm

/-- Of the two ends, the one with a recorded fault is the failed run. -/
theorem Play.failed_iff : c.failed P = true ↔ c.state.faults ≠ [] := by
  have hends : c.failed P = true ↔ c.ended P ∧ ¬ c.final P = true := by
    rw [Play.ended_iff, Play.forall_enabled_iff]
    simp [Play.failed]
  rw [hends, Play.ended, Play.final_iff]
  tauto

/-! ### What the mover does -/

theorem Play.next_of_host {t : BusTuple} {i : Instr} (hm : c.mover P a = some .host)
    (ht : c.transaction P = some t) (hi : decodeBus t = .ok i) :
    c.next P a = outcomeAt (c.sent + 1) (exec i c.state) := by
  simp [Play.next, hm, ht, hostStep, hi]

theorem Play.next_of_engine {w : Word} (hm : c.mover P a = some .engine) (hp : c.state.pending = some w) :
    c.next P a = outcomeAt c.sent (engineStep w c.state) := by
  simp [Play.next, hm, hp]

/-- Settles O56: who is enabled, who of these moves, what the mover does, and where nobody does. -/
theorem playTakesTheEnabledAgentsStep : Obligations.PlayTakesTheEnabledAgentsStep := by
  refine fun P a c => ⟨Play.enabled_host, Play.enabled_engine, Play.mover_of_named,
    fun b => Play.mover_of_other, fun t i hm ht hi => ?host, fun w i s hm hp hi he => ?engine,
    Play.next_of_mover_none, Play.mover_eq_none_iff_ended, Play.failed_iff⟩
  case host =>
    rw [Play.next_of_host hm ht hi]
    exact ⟨fun s he => by rw [he]; rfl, fun r he => by rw [he]; rfl⟩
  case engine =>
    have hstep : engineStep w c.state = .next s := by simpa [engineStep, hi] using he
    rw [Play.next_of_engine hm hp, hstep]
    rfl

/-! ### A finite program ends -/

/-- How many steps a run of at most `N` transactions can still take: for each transaction left one of the host
and one of ENGINE, and one for a pending command; none once a fault is recorded. -/
def Play.stepsLeft (N : Nat) (c : Play) : Nat :=
  if c.state.faults = [] then 2 * (N - c.sent) + c.state.pending.isSome.toNat else 0

section
variable {N : Nat}

theorem Play.stepsLeft_le : c.stepsLeft N ≤ 2 * (N - c.sent) + 1 := by
  have hbit := c.state.pending.isSome.toNat_le
  unfold Play.stepsLeft
  split <;> omega

theorem Play.stepsLeft_of_fault (h : c.state.faults ≠ []) : c.stepsLeft N = 0 := if_neg h

theorem Play.stepsLeft_of_nothing_pending (h : c.state.pending = none) : c.stepsLeft N ≤ 2 * (N - c.sent) := by
  simp only [Play.stepsLeft, h]
  split <;> simp

theorem Play.stepsLeft_of_pending (hf : c.state.faults = []) (hp : c.state.pending ≠ none) :
    c.stepsLeft N = 2 * (N - c.sent) + 1 := by
  simp [Play.stepsLeft, hf, Option.isSome_iff_ne_none.2 hp]

theorem Play.le_stepsLeft (hf : c.state.faults = []) : 2 * (N - c.sent) ≤ c.stepsLeft N := by
  simp [Play.stepsLeft, hf]

/-- ENGINE's step leaves nothing pending, or a fault. -/
theorem stepsLeft_engineStep_lt {w : Word} {s t : State} {k : Nat} (hf : s.faults = []) (hp : s.pending = some w)
    (h : engineStep w s = .next t) : Play.stepsLeft N ⟨t, k⟩ < Play.stepsLeft N ⟨s, k⟩ := by
  rw [Play.stepsLeft_of_pending (c := ⟨s, k⟩) hf (by simp [hp])]
  rcases engineStep_next_cases h with ⟨x, -, rfl⟩ | ⟨u, e, g, -, -, rfl⟩
  · rw [Play.stepsLeft_of_fault (by simp [State.recordFault_of_none _ hf])]
    omega
  · exact Nat.lt_succ_of_le (Play.stepsLeft_of_nothing_pending rfl)

/-- A transaction uses up two steps and may leave a command pending. -/
theorem stepsLeft_transaction_lt {s t : State} {k : Nat} (hf : s.faults = []) (hk : k < N) :
    Play.stepsLeft N ⟨t, k + 1⟩ < Play.stepsLeft N ⟨s, k⟩ := by
  have hafter := Play.stepsLeft_le (c := ⟨t, k + 1⟩) (N := N)
  have hbefore := Play.le_stepsLeft (c := ⟨s, k⟩) (N := N) hf
  simp only at hafter hbefore
  omega

/-- A run of at most `N` transactions that has not ended takes a step, and has fewer left. -/
theorem Play.next_stepsLeft_lt (hwf : P.wellFormed c.state.mem.size) (hN : ∀ k obs, N ≤ k → P k obs = none)
    (a : Agent) (hend : ¬ c.ended P) :
    ∃ d, c.next P a = .next d ∧ d.state.mem.size = c.state.mem.size ∧ d.stepsLeft N < c.stepsLeft N := by
  rcases c.next_cases P a with ⟨hm, -⟩ | ⟨w, -, hp, hf, he⟩ | ⟨bus, -, hbus, hf, he⟩
  · exact absurd (Play.mover_eq_none_iff_ended.1 hm) hend
  · obtain ⟨t, ht, -⟩ := engineStep_next w c.state
    exact ⟨⟨t, c.sent⟩, by rw [he, ht]; rfl, engineStep_memSize ht, stepsLeft_engineStep_lt hf hp ht⟩
  · obtain ⟨i, hi, hiwf⟩ := hwf _ _ _ hbus
    obtain ⟨t, ht⟩ := exec_next_of_wellFormed hiwf
    have hstep : hostStep bus c.state.host c.state = .next t := by
      simp only [hostStep, hi]; exact ht
    have hsent : c.sent < N := by
      by_contra hge
      simp [Play.transaction, hN c.sent _ (Nat.not_lt.1 hge)] at hbus
    exact ⟨⟨t, c.sent + 1⟩, by rw [he, hstep]; rfl, hostStep_memSize hstep, stepsLeft_transaction_lt hf hsent⟩

/-- By induction on a bound of the steps left, along the run's first step. -/
theorem play_ends (hN : ∀ k obs, N ≤ k → P k obs = none) {σ : Schedule} {k : Nat}
    (hwf : P.wellFormed c.state.mem.size) (hk : c.stepsLeft N ≤ k) : ∃ n, n ≤ k ∧ (play P σ c n).ended P := by
  induction k generalizing σ c with
  | zero =>
    refine ⟨0, le_rfl, ?_⟩
    by_contra hend
    obtain ⟨d, -, -, hlt⟩ := Play.next_stepsLeft_lt hwf hN (σ 0) hend
    omega
  | succ k ih =>
    by_cases hend : c.ended P
    · exact ⟨0, Nat.zero_le _, hend⟩
    · obtain ⟨d, hnext, hsize, hlt⟩ := Play.next_stepsLeft_lt hwf hN (σ 0) hend
      obtain ⟨n, hn, hd⟩ := ih (σ := fun m => σ (m + 1)) (c := d) (hsize ▸ hwf) (by omega)
      refine ⟨n + 1, Nat.succ_le_succ hn, ?_⟩
      rwa [play_shift, play_succ_of_next (n := 0) hnext]

end

/-- Settles O60: at most `2N + 1` steps are left at any point. -/
theorem finiteProgramEnds : Obligations.FiniteProgramEnds := by
  intro P N σ c hwf hN
  have hbound := Play.stepsLeft_le (c := c) (N := N)
  exact play_ends hN hwf (by omega)

end Sys2Proof.Machine
end

section
/-! PROOFS. The two model faults (60_exceptions.md R213-R216): the busy hazard, a faulted state, and the reads
of DECODE and ENCODE that meet a cell without a value. -/

namespace Sys2Proof.Machine

/-! ### The busy hazard (R215) -/

/-- Settles O25: `unlessBusy` guards every transaction but RD and RST, and of RD only the STATUS read is
allowed. -/
theorem busyTransactionsRecordHazard : Obligations.BusyTransactionsRecordHazard := by
  refine fun s i hbusy htx hwf => ⟨fun hrd hrst => ?hazard, ?allowed⟩
  case hazard =>
    cases i with
    | decode | encode | xormask => cases htx
    | rd r => exact (regReadReturnsTheRegister s r).2 hbusy (by rintro rfl; exact hrd rfl)
    | wr | wrCmd => exact hazard_of_unlessBusy rfl hbusy
    | mrd a => exact hazard_of_unlessBusy (exec_mrd_of_lt (of_decide_eq_true hwf)) hbusy
    | mwr a b => exact hazard_of_unlessBusy (exec_mwr_of_lt b (of_decide_eq_true hwf)) hbusy
    | rst => exact absurd rfl hrst
  case allowed =>
    rintro (rfl | rfl)
    · exact ⟨_, exec_rd_status s, rfl⟩
    · exact ⟨_, rfl, s.resetAssert_faults⟩

/-! ### A faulted state (R213) -/

/-- An instruction that meets a model fault answers the state that records it (log entry 2). -/
theorem exec_ne_fault (i : Instr) (s : State) (k : Fault) : exec i s ≠ .fault k := by
  intro h
  cases i with
  | mrd | mwr =>
    simp only [exec, execMrd, execMwr] at h
    split at h <;> cases h
  | _ => cases h

theorem engineStep_ne_fault (w : Word) (s : State) (k : Fault) : engineStep w s ≠ .fault k := by
  obtain ⟨t, ht, -⟩ := engineStep_next w s
  simp [ht]

theorem hostStep_ne_fault (bus : BusTuple) (rest : List HostOp) (s : State) (k : Fault) :
    hostStep bus rest s ≠ .fault k := by
  unfold hostStep
  split
  · exact exec_ne_fault _ _ k
  · simp

theorem step_of_faulted {s : State} (h : s.faults ≠ []) : ∃ k ∈ s.faults, step s = .fault k := by
  obtain ⟨k, rest, hf⟩ := List.exists_cons_of_ne_nil h
  exact ⟨k, by simp [hf], by simp [step, hf]⟩

/-- Settles O41: a recorded fault disables both agents, and neither agent's step answers a fault. -/
theorem faultedStateIsQuiescent : Obligations.FaultedStateIsQuiescent := by
  refine fun s => ⟨fun hf => ⟨step_of_faulted hf, ?notFinal, State.mover_of_faulted hf⟩, fun k hk => ?recorded⟩
  case notFinal => simp [State.final, hf]
  case recorded =>
    rcases step_cases s with ⟨j, rest, hf, he⟩ | ⟨-, ⟨w, -, -, he⟩ | ⟨bus, rest, -, -, he⟩ | ⟨-, he⟩⟩
    all_goals rw [he] at hk
    · cases hk
      simp [hf]
    · exact absurd hk (engineStep_ne_fault w _ k)
    · exact absurd hk (hostStep_ne_fault bus rest _ k)
    · cases hk

/-! ### Reads that meet a cell without a value (R214) -/

theorem Memory.holds.read_ne_none {m : Memory} {a y : Nat} {bs : List Byte} (h : m.holds a bs) (hlo : a ≤ y)
    (hhi : y < a + bs.length) : m.read y ≠ none := by
  have hy := h (y - a) (by omega)
  rw [Nat.add_sub_of_le hlo] at hy
  simp [hy]

theorem State.readingByte_of_empty {s : State} {a : Nat} (k : Byte → State) (h : s.mem.read a = none) :
    s.readingByte a k = s.recordFault (.uninit a) := by
  simp [State.readingByte, h]

section
variable {s : State} {a : Nat} {pre : List Byte} (hpre : s.mem.holds a pre)
  (hnone : s.mem.read (a + pre.length) = none)
include hpre hnone

/-- The read stops behind the bytes `pre`, at the first cell without a value. -/
theorem State.readingBytes_of_empty {n : Nat} (k : List Byte → State) (hl : pre.length < n) :
    s.readingBytes a n k = s.recordFault (.uninit (a + pre.length)) :=
  State.readingBytes_of_none k (by omega) (by omega) hnone fun _ => hpre.read_ne_none

theorem State.readingKey_of_empty (k : Key → State) (hl : pre.length < 4) :
    s.readingKey a k = s.recordFault (.uninit (a + pre.length)) := by
  rcases s.readingKey_cases a k with ⟨key, hkey, -⟩ | ⟨x, hlo, -, hx, hbefore, he⟩
  · exact absurd hnone (hkey.read_ne_none (Nat.le_add_right _ _) (Nat.add_lt_add_left hl a))
  · obtain rfl : x = a + pre.length := by
      rcases Nat.lt_trichotomy x (a + pre.length) with hlt | heq | hgt
      · exact absurd hx (hpre.read_ne_none hlo hlt)
      · exact heq
      · exact absurd hnone (hbefore _ (Nat.le_add_right _ _) hgt)
    exact he

end

/-! ### DECODE's reads, in the order of R120 -/

section
variable {s : State}

theorem decodeFrame_of_empty_first (hr : s.mem.inRange s.regs.decBase.toNat s.regs.decAvail.toNat)
    (hn : 2 ≤ s.regs.decAvail.toNat) (hnone : s.mem.read s.regs.decBase.toNat = none) :
    decodeFrame s = s.recordFault (.uninit s.regs.decBase.toNat) := by
  rw [decodeFrame, if_pos hr, if_neg (Nat.not_lt.2 hn), State.readingByte_of_empty _ hnone]

theorem decodeFrame_of_empty_second {h0 : Byte} (hr : s.mem.inRange s.regs.decBase.toNat s.regs.decAvail.toNat)
    (hn : 2 ≤ s.regs.decAvail.toNat) (hh0 : s.mem.read s.regs.decBase.toNat = some h0)
    (hnone : s.mem.read (s.regs.decBase.toNat + 1) = none) :
    decodeFrame s = s.recordFault (.uninit (s.regs.decBase.toNat + 1)) := by
  rw [decodeFrame, if_pos hr, if_neg (Nat.not_lt.2 hn), State.readingByte_of_read _ hh0,
    State.readingByte_of_empty _ hnone]

variable {h0 h1 : Byte} {pre : List Byte} {len : Nat}

theorem State.decExtension_of_empty (hn : 2 + extSize (unpack h0 h1).len7 ≤ s.regs.decAvail.toNat)
    (hl : pre.length < extSize (unpack h0 h1).len7) (hpre : s.mem.holds (s.regs.decBase.toNat + 2) pre)
    (hnone : s.mem.read (s.regs.decBase.toNat + 2 + pre.length) = none) :
    s.decExtension h0 h1 = s.recordFault (.uninit (s.regs.decBase.toNat + 2 + pre.length)) := by
  simp only [State.decExtension]
  rw [if_neg (Nat.not_lt.2 hn), State.readingBytes_of_empty hpre hnone _ hl]

theorem State.decPayload_of_empty_key (hm : (unpack h0 h1).mask = true)
    (hn : payloadOffset (unpack h0 h1) ≤ s.regs.decAvail.toNat) (hl : pre.length < 4)
    (hpre : s.mem.holds (s.regs.decBase.toNat + 2 + extSize (unpack h0 h1).len7) pre)
    (hnone : s.mem.read (s.regs.decBase.toNat + 2 + extSize (unpack h0 h1).len7 + pre.length) = none) :
    s.decPayload h0 h1 len =
      s.recordFault (.uninit (s.regs.decBase.toNat + 2 + extSize (unpack h0 h1).len7 + pre.length)) := by
  simp only [State.decPayload]
  rw [if_neg (Nat.not_lt.2 hn), if_pos hm, State.readingKey_of_empty hpre hnone _ hl]

theorem State.decMasked_of_empty {key : Key} (hl : pre.length < len)
    (hpre : s.mem.holds (s.regs.decBase.toNat + payloadOffset (unpack h0 h1)) pre)
    (hnone : s.mem.read (s.regs.decBase.toNat + payloadOffset (unpack h0 h1) + pre.length) = none) :
    s.decMasked h0 h1 len key =
      s.recordFault (.uninit (s.regs.decBase.toNat + payloadOffset (unpack h0 h1) + pre.length)) :=
  State.readingBytes_of_empty hpre hnone _ hl

end

/-- Settles O29: each stage's read finds its bytes until the one that stops at the empty cell. -/
theorem decodeRecordsTheFirstEmptyCell : Obligations.DecodeRecordsTheFirstEmptyCell := by
  intro s hf
  dsimp only
  intro hr h2
  simp only [exec_decode, Host.Outcome.next.injEq, ← State.recordFault_of_none _ hf]
  refine ⟨decodeFrame_of_empty_first hr h2, fun h0 => decodeFrame_of_empty_second hr h2, fun h0 h1 hhdr => ?_⟩
  rw [decodeFrame_of_header hr h2 hhdr]
  refine ⟨fun pre hn hl => State.decExtension_of_empty hn hl,
    fun x pre hx hext hm hn hl hpre hnone => ?key,
    fun x key pre hx hext hm hkey hn hl hpre hnone => ?payload⟩
  all_goals
    have hoff := payloadOffset_of_mask hm
    rw [State.decExtension_of_holds (by omega) hx hext]
  case key =>
    rw [hx] at hpre hnone ⊢
    exact State.decPayload_of_empty_key hm (by omega) hl hpre hnone
  case payload =>
    have haddr : s.regs.decBase.toNat + 2 + x.length + 4 =
        s.regs.decBase.toNat + payloadOffset (unpack h0 h1) := by omega
    rw [haddr] at hpre hnone ⊢
    rw [State.decPayload_of_key hm (by omega) (hx ▸ hkey), if_neg (by omega)]
    exact State.decMasked_of_empty hl hpre hnone

/-! ### ENCODE's read -/

theorem not_encOverlaps_of_apart {src len dst total : Nat} (h : dst + total ≤ src ∨ src + len ≤ dst) :
    ¬ encOverlaps src len dst total := by
  rintro ⟨-, h1, h2⟩
  omega

theorem encodeFrame_of_empty {s : State} {fopc : BitVec 4} {fin : Bool} {pre : List Byte}
    (hsrc : s.mem.inRange (encSrcOf s) (encLenOf s)) (hdst : s.mem.inRange (encDstOf s) (encCapOf s))
    (hcap : frameLength (encLenOf s) ≤ encCapOf s)
    (hapart : ¬ encOverlaps (encSrcOf s) (encLenOf s) (encDstOf s) (frameLength (encLenOf s)))
    (hl : pre.length < encLenOf s) (hpre : s.mem.holds (encSrcOf s) pre)
    (hnone : s.mem.read (encSrcOf s + pre.length) = none) :
    encodeFrame fopc fin s = s.recordFault (.uninit (encSrcOf s + pre.length)) := by
  rw [encodeFrame, if_pos ⟨hsrc, hdst⟩, if_neg (Nat.not_lt.2 hcap), if_neg hapart,
    State.readingBytes_of_empty hpre hnone _ hl]

/-- Settles O35: with every check passed, the source read stops at the empty cell. -/
theorem encodeRecordsTheFirstEmptyCell : Obligations.EncodeRecordsTheFirstEmptyCell := by
  intro s fopc fin pre hf
  dsimp only
  intro hsrc hdst hcap hapart hl hpre hnone
  rw [exec_encode, encodeFrame_of_empty hsrc hdst hcap (not_encOverlaps_of_apart hapart) hl hpre hnone,
    State.recordFault_of_none _ hf]

end Sys2Proof.Machine
end

section
/-! PROOFS. A command that fails: its result registers 0, and nothing else but `finish` (60_exceptions.md
R211). -/

namespace Sys2Proof.Machine

/-- The register file with every register of `l` 0. -/
def Regs.clear (g : Regs) (l : List RegName) : Regs := l.foldl (fun g n => g.set n 0#64) g

theorem Regs.get_clear (g : Regs) (l : List RegName) (n : RegName) :
    (g.clear l).get n = if n ∈ l then 0#64 else g.get n := by
  induction l generalizing g with
  | nil => rfl
  | cons m l ih =>
    have htail : g.clear (m :: l) = (g.set m 0#64).clear l := rfl
    rw [htail, ih, Regs.get_set]
    by_cases hn : n = m <;> simp [hn]

/-- `t` is `s` after a failure of the pending word `w`'s command: its result registers cleared, then
`finish`. -/
def State.Fails (w : Word) (s t : State) : Prop :=
  ∃ c g, t = State.finish { s with regs := s.regs.clear (resultRegisters w) } c g

/-- A failed command's registers other than STATUS. -/
theorem State.Fails.regs_get {w : Word} {s t : State} (h : State.Fails w s t) {n : RegName} (hn : n ≠ .status) :
    t.regs.get n = if n ∈ resultRegisters w then 0#64 else s.regs.get n := by
  obtain ⟨c, g, rfl⟩ := h
  exact (State.finish_regs_get hn).trans (Regs.get_clear ..)

theorem State.Fails.status {w : Word} {s t : State} (h : State.Fails w s t) :
    t.regs.status = s.finishedStatus (statusFields t.regs.status).err (statusFields t.regs.status).stage := by
  obtain ⟨c, g, rfl⟩ := h
  have hkept : (s.regs.clear (resultRegisters w)).status = s.regs.status :=
    (Regs.get_clear s.regs _ .status).trans (if_neg (status_not_result w))
  simp [State.finishedStatus, hkept]

theorem State.decFail_fails {w : Word} (hw : decodeCommand w = .ok .decode) (s : State) (c : ErrorCode)
    (g : Stage) : State.Fails w s (s.decFail c g) :=
  ⟨c, g, by simp only [resultRegisters, hw]; rfl⟩

theorem State.encFail_fails {w : Word} {o : BitVec 4} {f : Bool} (hw : decodeCommand w = .ok (.encode o f))
    (s : State) (c : ErrorCode) : State.Fails w s (s.encFail c) :=
  ⟨c, .none, by simp only [resultRegisters, hw]; rfl⟩

/-- XORMASK and an illegal word have no result registers. -/
theorem State.finish_fails {w : Word} (hw : resultRegisters w = []) (s : State) (c : ErrorCode) (g : Stage) :
    State.Fails w s (s.finish c g) :=
  ⟨c, g, by rw [hw]; rfl⟩

theorem State.recordFault_faults_ne_nil (s : State) (k : Fault) : (s.recordFault k).faults ≠ [] :=
  List.ne_nil_of_mem ((s.mem_recordFault k k).2 (.inl rfl))

theorem State.finish_ok_err (s : State) (g : Stage) : (statusFields (s.finish .ok g).regs.status).err = 0#4 := by
  simp [errorBits]

theorem State.decodesTo.err {s t : State} (h : s.decodesTo t) : (statusFields t.regs.status).err = 0#4 := by
  obtain ⟨h0, h1, len, -, -, ⟨-, rfl⟩ | ⟨-, bs, key, -, rfl⟩⟩ := h
  · exact State.finish_ok_err _ _
  · exact State.finish_ok_err _ _

/-- ENGINE's step records a fault, finishes OK, or fails. -/
theorem engineStep_fault_ok_or_fails {w : Word} {s t : State} (hstep : engineStep w s = .next t) :
    t.faults ≠ [] ∨ (statusFields t.regs.status).err = 0#4 ∨ State.Fails w s t := by
  rcases engineStep_cases w s with ⟨hw, he⟩ | ⟨o, f, hw, he⟩ | ⟨hw, he⟩ | ⟨e, hw, he⟩
  all_goals obtain rfl := Host.Outcome.next.inj (he.symm.trans hstep)
  · rcases decodeFrame_cases s with ⟨c, g, -, h⟩ | ⟨x, -, h⟩ | h
    · exact .inr (.inr (h ▸ s.decFail_fails hw c g))
    · exact .inl (h ▸ s.recordFault_faults_ne_nil _)
    · exact .inr (.inl h.err)
  · rcases encodeFrame_cases o f s with ⟨c, -, h⟩ | ⟨bs, -, -, -, -, h⟩ | ⟨x, -, h⟩
    · exact .inr (.inr (h ▸ s.encFail_fails hw c))
    · exact .inr (.inl (h ▸ State.finish_ok_err _ _))
    · exact .inl (h ▸ s.recordFault_faults_ne_nil _)
  · rcases xormaskRegion_cases s with ⟨-, h⟩ | ⟨-, bs, -, -, h⟩ | ⟨-, x, -, h⟩
    · exact .inr (.inr (h ▸ s.finish_fails (by simp [resultRegisters, hw]) .range .none))
    · exact .inr (.inl (h ▸ State.finish_ok_err _ _))
    · exact .inl (h ▸ s.recordFault_faults_ne_nil _)
  · exact .inr (.inr (s.finish_fails (by simp [resultRegisters, hw]) .badCommand .none))

/-- Settles O43: what is neither a recorded fault nor ERR 0 is a failure, which clears the command's result
registers. -/
theorem failedCommandIsPrecise : Obligations.FailedCommandIsPrecise := by
  intro s t w hm hp hstep hf herr
  obtain ⟨-, hturn⟩ := step_of_engine_turn hm hp
  obtain hfault | hok | hfails := engineStep_fault_ok_or_fails (hturn.symm.trans hstep)
  · exact absurd hf hfault
  · exact absurd hok herr
  have hstatus := hfails.status
  have hget (n : RegName) (hn : n ≠ .status) := hfails.regs_get hn
  simp only [State.takeTurn_finishedStatus, State.takeTurn_regs] at hstatus hget
  obtain ⟨c, g, rfl⟩ := hfails
  refine ⟨by simp, hstatus, rfl, by simp, by simp, fun hw n hn => ?decode, fun o f hw n hn => ?encode,
    fun hw n hn => ?noResults⟩
  case decode => simpa only [resultRegisters, hw] using hget n hn
  case encode => simpa only [resultRegisters, hw, List.mem_singleton] using hget n hn
  case noResults =>
    have hnone : resultRegisters w = [] := by
      rcases hw with hw | ⟨e, hw⟩ <;> simp [resultRegisters, hw]
    simpa [hnone] using hget n hn

end Sys2Proof.Machine
end

section
/-! PROOFS. Reset, and the region of effect a pending command may write (70_reset_and_hazards.md R240-R243,
R245, R247). -/

namespace Sys2Proof.Machine

/-! ### The region of effect (R242) -/

/-- The region of effect by the command words themselves instead of by the decoder. -/
theorem regionOfEffect_eq_ite (g : Regs) (w : Word) :
    regionOfEffect g w =
      if w = 0x1#64 then (g.decBase.toNat, g.decAvail.toNat)
      else if w &&& 0xFFFFFFFFFFFFFE0F#64 = 0x2#64 then (g.encDst.toNat, g.encCap.toNat)
      else if w = 0x3#64 then (g.xorBase.toNat, g.xorLen.toNat)
      else (0, 0) := by
  have hdec : w = 0x1#64 ↔ decodeCommand w = .ok .decode := by
    rw [decodeCommand_eq_ok_iff, encode, Encoding.command.injEq, eq_comm]
  have henc : w &&& 0xFFFFFFFFFFFFFE0F#64 = 0x2#64 ↔ ∃ o f, decodeCommand w = .ok (.encode o f) :=
    (opcodeRow_selects_iff encodeRow w).symm.trans (encodeRow_selects_iff w)
  have hxor : w = 0x3#64 ↔ decodeCommand w = .ok .xormask := by
    rw [decodeCommand_eq_ok_iff, encode, Encoding.command.injEq, eq_comm]
  simp only [hdec, henc, hxor, regionOfEffect]
  rcases decodeCommand_cases w with h | ⟨o, f, h⟩ | h | ⟨e, h⟩ <;> simp [h]

/-! ### The rst transaction (R241-R243) -/

theorem State.resetAssert_mem_of_nothing_pending {s : State} (h : s.pending = none) :
    s.resetAssert.mem = s.mem := by
  simp [State.resetAssert, h]

theorem State.resetAssert_mem_of_pending {s : State} {w : Word} (h : s.pending = some w) :
    s.resetAssert.mem = s.mem.forget (regionOfEffect s.regs w).1 (regionOfEffect s.regs w).2 := by
  simp [State.resetAssert, h]

/-- Settles O19: reset forgets the pending command's region, up to MEM_SIZE. -/
theorem resetTransaction : Obligations.ResetTransaction := by
  refine ⟨fun n r => ⟨Regs.get_zero r, fun _ => rfl⟩, fun s => ⟨s.resetAssert, rfl, rfl, Regs.get_zero,
    s.resetAssert_memSize, State.resetAssert_mem_of_nothing_pending, fun w hw => ?_⟩⟩
  intro region a
  have hregion : region = regionOfEffect s.regs w := (regionOfEffect_eq_ite s.regs w).symm
  simp only [hregion, State.resetAssert_mem_of_pending hw, Memory.read_forget, lt_min_iff]

/-! ### A command's writes (R242) -/

theorem Memory.sameOutside_refl (m : Memory) (a n : Nat) : m.sameOutside m a n := fun _ _ => rfl

/-- Bytes written inside a region leave every cell outside it. -/
theorem Memory.writeBytes_sameOutside_of_le (m : Memory) {a b n : Nat} {bs : List Byte} (hlo : b ≤ a)
    (hhi : a + bs.length ≤ b + n) : m.sameOutside (m.writeBytes a bs) b n := fun x hx =>
  m.writeBytes_sameOutside a bs x (by omega)

theorem State.decodesTo.sameOutside {s t : State} (h : s.decodesTo t) :
    s.mem.sameOutside t.mem (decBaseOf s) (decAvailOf s) := by
  obtain ⟨h0, h1, len, -, hfit, ⟨-, rfl⟩ | ⟨-, bs, key, hlen, rfl⟩⟩ := h
  · exact s.mem.sameOutside_refl _ _
  · refine s.mem.writeBytes_sameOutside_of_le (Nat.le_add_right _ _) ?_
    rw [xorMask_length]
    omega

theorem encodeFrame_sameOutside (o : BitVec 4) (f : Bool) (s : State) :
    s.mem.sameOutside (encodeFrame o f s).mem (encDstOf s) (encCapOf s) := by
  rcases encodeFrame_cases o f s with ⟨c, -, h⟩ | ⟨bs, hl, -, -, hcap, h⟩ | ⟨x, -, h⟩
  all_goals rw [h]
  · exact s.mem.sameOutside_refl _ _
  · refine s.mem.writeBytes_sameOutside_of_le le_rfl ?_
    rw [List.length_append, frameHead_length, hl]
    exact Nat.add_le_add_left hcap _
  · exact s.mem.sameOutside_refl _ _

theorem xormaskRegion_sameOutside (s : State) :
    s.mem.sameOutside (xormaskRegion s).mem (xorBaseOf s) (xorLenOf s) := by
  rcases xormaskRegion_cases s with ⟨-, h⟩ | ⟨-, bs, hl, -, h⟩ | ⟨-, x, -, h⟩
  all_goals rw [h]
  · exact s.mem.sameOutside_refl _ _
  · exact s.mem.writeBytes_sameOutside_of_le le_rfl (by rw [xorMask_length, hl])
  · exact s.mem.sameOutside_refl _ _

/-- Each command writes its payload or frame inside its region; an illegal word writes no cell. -/
theorem engineStep_sameOutside {w : Word} {s t : State} (hstep : engineStep w s = .next t) :
    s.mem.sameOutside t.mem (regionOfEffect s.regs w).1 (regionOfEffect s.regs w).2 := by
  rcases engineStep_cases w s with ⟨hw, he⟩ | ⟨o, f, hw, he⟩ | ⟨hw, he⟩ | ⟨e, hw, he⟩
  all_goals
    obtain rfl := Host.Outcome.next.inj (he.symm.trans hstep)
    simp only [regionOfEffect, hw]
  · rcases decodeFrame_cases s with ⟨c, g, -, h⟩ | ⟨x, -, h⟩ | h
    · rw [h]; exact s.mem.sameOutside_refl _ _
    · rw [h]; exact s.mem.sameOutside_refl _ _
    · exact h.sameOutside
  · exact encodeFrame_sameOutside o f s
  · exact xormaskRegion_sameOutside s
  · exact s.mem.sameOutside_refl _ _

/-- Settles O44: taking the turn changes neither the registers that give the region nor a cell. -/
theorem commandWritesOnlyItsRegionOfEffect : Obligations.CommandWritesOnlyItsRegionOfEffect := by
  intro s t w hm hp hstep
  obtain ⟨-, hturn⟩ := step_of_engine_turn hm hp
  simpa using engineStep_sameOutside (hturn.symm.trans hstep)

/-! ### The host while BUSY (R245, R247) -/

/-- While BUSY a transaction that answers a next state records a fault, returns a value, or is a reset. -/
theorem hostStep_of_busy {bus : BusTuple} {rest : List HostOp} {s t : State} (hb : s.busy = true)
    (h : hostStep bus rest s = .next t) :
    (∃ k, t = State.recordFault { s with host := rest } k) ∨
    (∃ o, t = State.observe { s with host := rest } o) ∨
    (decodeBus bus = .ok .rst ∧ t = State.resetAssert { s with host := rest }) := by
  obtain ⟨i, hi, hcases⟩ := hostStep_cases h
  rcases hcases with hk | ho | ⟨r, v, -, -, hidle, -⟩ | ⟨v, -, hidle, -⟩ | ⟨a, b, -, -, hidle, -⟩ | ⟨rfl, ht⟩
  · exact .inl hk
  · exact .inr (.inl ho)
  · simp [hb] at hidle
  · simp [hb] at hidle
  · simp [hb] at hidle
  · exact .inr (.inr ⟨hi, ht⟩)

/-- Settles O46: neither a recorded fault nor a returned value touches registers, memory or the pending
word. -/
theorem operandsAreStableWhilePending : Obligations.OperandsAreStableWhilePending := by
  intro s t bus rest _ hb hm hn hstep hrst
  have hturn : step s = hostStep bus rest s.takeTurn := by
    simp [step, State.faults_of_mover hm, hm, hn]
  have hbusy : s.takeTurn.busy = true := (State.busy_of_status s _ (by simp)).trans hb
  rcases hostStep_of_busy hbusy (hturn.symm.trans hstep) with ⟨k, rfl⟩ | ⟨o, rfl⟩ | ⟨hdec, -⟩
  · simp
  · simp
  · exact absurd hdec hrst

end Sys2Proof.Machine
end

section
/-! PROOFS. A pending command ends, and with it `wait`: under a schedule that is data, and under every weakly
fair one (70_reset_and_hazards.md R246, R247, R250). -/

namespace Sys2Proof.Machine

/-! ### The core machine's wait -/

section
variable {s : State} {rest : List HostOp}

/-- A host at a `wait` has a next transaction. -/
theorem State.hostEnabled_of_wait (hf : s.faults = []) (hhost : s.host = .wait :: rest) :
    s.hostEnabled = true :=
  s.hostEnabled_iff.2 ⟨by simp [State.nextTransaction, hhost, fetchHost], hf⟩

/-- What a read of STATUS returns to the host. -/
def State.pollResult (s : State) : Observed :=
  .register (regNumOf .status) (s.regs.status &&& implementedBits .status)

/-- `k` polls while BUSY use up `k` entries of the schedule, and leave only the values they returned. -/
theorem core_run_polls {l : List Agent} (hf : s.faults = []) (hp : s.pending ≠ none) (hb : s.busy = true)
    (n k : Nat) : ∃ obs, Sys2Proof.core.run (k + n) (s.replan (.wait :: rest) (List.replicate k .host ++ l)) =
      Sys2Proof.core.run n (State.replan { s with observed := obs } (.wait :: rest) l) := by
  induction k generalizing s with
  | zero => exact ⟨s.observed, by rw [Nat.zero_add]; rfl⟩
  | succ k ih =>
    obtain ⟨hm, hturn⟩ := State.replan_mover_of_both (s := s) (p := .wait :: rest)
      (l := List.replicate k .host ++ l) (a := .host) (s.engineEnabled_iff.2 ⟨hp, hf⟩)
      (State.hostEnabled_of_wait hf rfl)
    obtain ⟨v, hstep, rfl⟩ := waitPollsStatus (s.replan (.wait :: rest) _) rest hf rfl hm
    rw [hturn, State.statusRead_getLsbD_zero, State.replan_busy, if_pos hb] at hstep
    obtain ⟨obs, hrun⟩ := ih (s := s.observe s.pollResult) hf hp hb
    refine ⟨obs, Eq.trans ?_ hrun⟩
    rw [Nat.add_right_comm]
    exact core_run_next _ hstep

/-- With nothing pending and BUSY 0 the next poll leaves the loop. -/
theorem step_wait_of_idle (hf : s.faults = []) (hp : s.pending = none) (hb : s.busy = false)
    (hhost : s.host = .wait :: rest) : step s = .next (State.observe { s with host := rest } s.pollResult) := by
  have hn : s.nextTransaction = some (⟨.rd, some (regNumOf .status).toNat, none⟩, rest) := by
    simp [State.nextTransaction, hhost, fetchHost, hb]
  rw [step_of_nothing_pending hf hp hn (decodeBus_rd _), exec_rd_status]
  rfl

/-- ENGINE's step, and either its fault or the poll that reads BUSY 0. -/
theorem core_run_wait_of_engine (hf : s.faults = []) (hp : s.pending ≠ none) (later : List Agent) :
    (∃ t : State, Sys2Proof.core.run 2 (s.replan (.wait :: rest) (.engine :: later)) = .next t ∧ t.host = rest ∧
      t.pending = none ∧ t.faults = [] ∧ t.busy = false ∧ t.schedule = later) ∨
    (∃ x, Sys2Proof.core.run 2 (s.replan (.wait :: rest) (.engine :: later)) = .fault (.uninit x) ∧
      s.mem.read x = none) := by
  obtain ⟨w, hw⟩ := Option.ne_none_iff_exists'.1 hp
  obtain ⟨hm, hturn⟩ := State.replan_mover_of_both (s := s) (p := .wait :: rest) (l := later) (a := .engine)
    (s.engineEnabled_iff.2 ⟨hp, hf⟩) (State.hostEnabled_of_wait hf rfl)
  obtain ⟨-, hengine⟩ := step_of_engine_turn hm hw
  rw [hturn] at hengine
  obtain ⟨t, ht, ⟨x, hx, rfl⟩ | ⟨v, c, g, hv, -, rfl⟩⟩ := engineStep_next w (s.replan (.wait :: rest) later)
  · have hfault : step ((s.replan (.wait :: rest) later).recordFault (.uninit x)) = .fault (.uninit x) := by
      simp [step, State.recordFault, hf]
    exact .inr ⟨x, (core_run_next 1 (hengine.trans ht)).trans (core_run_fault 0 hfault), hx⟩
  · have hidle : (v.finish c g).faults = [] := hv.faults.trans hf
    have hpoll := step_wait_of_idle hidle rfl (v.finish_busy c g) hv.host
    have hschedule : v.schedule = later := by rw [hv.rest]; rfl
    exact .inl ⟨_, (core_run_next 1 (hengine.trans ht)).trans (core_run_next 0 hpoll), rfl, rfl, hidle,
      v.finish_busy c g, hschedule⟩

end

/-- Settles O50: the polls, ENGINE's step, and the poll after it. -/
theorem waitEndsAfterTheEngineStep : Obligations.WaitEndsAfterTheEngineStep := by
  intro k s rest later hf hp hb hhost hsched
  obtain ⟨obs, hpolls⟩ := core_run_polls (rest := rest) (l := .engine :: later) hf hp hb 2 k
  have hs : s.replan (.wait :: rest) (List.replicate k .host ++ .engine :: later) = s := by
    rw [← hhost, ← hsched]; rfl
  rw [hs] at hpolls
  rcases core_run_wait_of_engine (s := { s with observed := obs }) (rest := rest) hf hp later with
    ⟨t, hrun, ht⟩ | ⟨x, hrun, hx⟩
  · exact .inl ⟨t, hpolls.trans hrun, ht⟩
  · exact .inr ⟨x, hpolls.trans hrun, hx⟩

/-! ### ENGINE moves under a weakly fair schedule (log entry 16) -/

section
variable {P : HostProgram} {σ : Schedule} {c : Play}

theorem play_succ_of_eq {n : Nat} {d e : Play} (hn : play P σ c n = d) (h : d.next P (σ n) = .next e) :
    play P σ c (n + 1) = e :=
  play_succ_of_next (by rwa [hn])

/-- A command ENGINE has stepped on is no longer pending, or a fault is recorded. -/
theorem engineStep_ends {w : Word} {s t : State} (h : engineStep w s = .next t) :
    t.pending = none ∨ t.faults ≠ [] := by
  rcases engineStep_next_cases h with ⟨x, -, rfl⟩ | ⟨u, c, g, -, -, rfl⟩
  · exact .inr (s.recordFault_faults_ne_nil _)
  · exact .inl rfl

/-- What holds only while a command is pending and no fault is recorded does not hold for ever: ENGINE is
enabled all the while, so it moves, and that ends it. -/
theorem exists_last_pending (Q : Play → Prop) (hfair : weaklyFair P σ c)
    (hQ : ∀ d, Q d → d.state.pending ≠ none ∧ d.state.faults = []) (hc : Q c) :
    ∃ n, (∀ m, m ≤ n → Q (play P σ c m)) ∧ ¬ Q (play P σ c (n + 1)) := by
  by_contra! hstays
  have hall (n : Nat) : Q (play P σ c n) := by
    induction n using Nat.strong_induction_on with
    | _ n ih =>
      cases n with
      | zero => exact hc
      | succ n => exact hstays n fun m hm => ih m (Nat.lt_succ_of_le hm)
  obtain ⟨m, -, hm⟩ := hfair .engine 0 fun m _ => Play.enabled_engine.2 (hQ _ (hall m))
  obtain ⟨w, hw⟩ := Option.ne_none_iff_exists'.1 (hQ _ (hall m)).1
  obtain ⟨t, ht, -⟩ := engineStep_next w (play P σ c m).state
  obtain ⟨hp, hf⟩ := hQ _ (hall (m + 1))
  rw [play_succ_of_next (d := ⟨t, _⟩) (by rw [Play.next_of_engine hm hw, ht]; rfl)] at hp hf
  exact (engineStep_ends ht).elim hp (absurd hf)

/-! ### Every host program -/

/-- The word `o` is pending, BUSY says so, and no fault is recorded. -/
def Play.keepsPending (o : Option Word) (c : Play) : Prop :=
  c.state.pending = o ∧ c.state.busy = true ∧ c.state.faults = []

/-- A step leaves a pending command as it is, or ends it, or records a fault. -/
theorem Play.keepsPending.next {o : Option Word} {a : Agent} {d : Play} (h : c.keepsPending o)
    (hnext : c.next P a = .next d) : d.keepsPending o ∨ d.state.pending = none ∨ d.state.faults ≠ [] := by
  obtain ⟨hp, hb, hf⟩ := h
  rcases c.next_cases P a with ⟨-, he⟩ | ⟨w, -, -, -, he⟩ | ⟨bus, -, -, -, he⟩
  all_goals rw [he] at hnext
  · cases hnext
    exact .inl ⟨hp, hb, hf⟩
  · obtain ⟨t, ht, -⟩ := engineStep_next w c.state
    rw [ht] at hnext
    cases hnext
    exact .inr (engineStep_ends ht)
  · cases hstep : hostStep bus c.state.host c.state with
    | fault k => exact absurd hstep (hostStep_ne_fault _ _ _ k)
    | refused r => rw [hstep] at hnext; cases hnext
    | next t =>
      rw [hstep] at hnext
      cases hnext
      rcases hostStep_of_busy hb hstep with ⟨k, rfl⟩ | ⟨v, rfl⟩ | ⟨-, rfl⟩
      · exact .inr (.inr (State.recordFault_faults_ne_nil _ k))
      · exact .inl ⟨hp, hb, hf⟩
      · exact .inr (.inl rfl)

theorem play_keepsPending_succ {o : Option Word} {n : Nat} (h : (play P σ c n).keepsPending o) :
    (play P σ c (n + 1)).keepsPending o ∨
      (play P σ c (n + 1)).state.pending = none ∨ (play P σ c (n + 1)).state.faults ≠ [] := by
  cases hnext : (play P σ c n).next P (σ n) with
  | next d => rw [play_succ_of_next hnext]; exact h.next hnext
  | fault k => exact .inl (by simpa [play, hnext] using h)
  | refused r => rw [play_succ_of_refused hnext]; exact .inl h

end

/-- Settles O58: at the last point that keeps the command pending, the step ends it. -/
theorem pendingCommandEndsUnderFairness : Obligations.PendingCommandEndsUnderFairness := by
  intro P σ c hfair hp hb hf
  obtain ⟨n, hkept, hnot⟩ := exists_last_pending (Play.keepsPending c.state.pending) hfair
    (fun d ⟨hd, _, hfd⟩ => ⟨hd ▸ hp, hfd⟩) ⟨rfl, hb, hf⟩
  exact ⟨n, fun m hm => ⟨(hkept m hm).1, (hkept m hm).2.2⟩,
    (play_keepsPending_succ (hkept n le_rfl)).resolve_left hnot⟩

/-! ### The run of wait -/

section
variable {σ : Schedule} {a : Agent} {c : Play}

/-- `c` after `k` polls that changed nothing of the block. -/
def Play.polled (c : Play) (k : Nat) : Play :=
  { state := { c.state with observed := c.state.observed ++ List.replicate k c.state.pollResult }
    sent := c.sent + k }

theorem Play.polled_zero (c : Play) : c.polled 0 = c := by simp [Play.polled]

theorem Play.polled_polled_one (c : Play) (k : Nat) : (c.polled k).polled 1 = c.polled (k + 1) := by
  simp [Play.polled, State.pollResult, List.replicate_succ', Nat.add_assoc]

/-- After a poll `wait` goes on exactly if BUSY was 1. -/
theorem Play.transaction_polled_succ (c : Play) (k : Nat) :
    (c.polled (k + 1)).transaction .wait =
      if c.state.busy = false then none else some ⟨.rd, some (regNumOf .status).toNat, none⟩ := by
  simp only [Play.transaction, Play.polled, List.replicate_succ', ← List.append_assoc, State.pollResult]
  rw [← Nat.add_assoc, HostProgram.wait_succ, State.statusRead_getLsbD_zero]

/-- The host's step in a run of `wait` is a poll. -/
theorem Play.next_wait_of_host (hm : c.mover .wait a = some .host) : c.next .wait a = .next (c.polled 1) := by
  obtain ⟨⟨t, ht⟩, -⟩ := Play.enabled_host.1 (Play.enabled_of_mover hm)
  obtain rfl := HostProgram.wait_sends ht
  rw [Play.next_of_host hm ht (decodeBus_rd _), exec_rd_status]
  rfl

/-- With nothing pending and BUSY 0, the run of `wait` is final, or becomes so with one more poll. -/
theorem Play.wait_of_idle (hp : c.state.pending = none) (hf : c.state.faults = []) (hb : c.state.busy = false)
    (a : Agent) : (c.transaction .wait = none ∧ c.final .wait = true) ∨
      (c.next .wait a = .next (c.polled 1) ∧ (c.polled 1).final .wait = true) := by
  cases ht : c.transaction .wait with
  | none => exact .inl ⟨rfl, Play.final_iff.2 ⟨ht, hp, hf⟩⟩
  | some t =>
    have hhost : c.enabled .wait .host = true := Play.enabled_host.2 ⟨⟨t, ht⟩, hf⟩
    have hengine : c.enabled .wait .engine = false := by
      simp [Play.enabled, State.engineEnabled, hp]
    have hm : c.mover .wait a = some .host := by
      cases a with
      | host => exact Play.mover_of_named hhost
      | engine => exact Play.mover_of_other (by simp) hengine hhost
    have hend : (c.polled 1).transaction .wait = none := by
      rw [Play.transaction_polled_succ, if_pos hb]
    exact .inr ⟨Play.next_wait_of_host hm, Play.final_iff.2 ⟨hend, hp, hf⟩⟩

/-- A `wait` that begins with the run does not stop while BUSY is 1. -/
theorem Play.transaction_polled_of_busy (hb : c.state.busy = true) (h0 : c.sent = 0) (k : Nat) :
    (c.polled k).transaction .wait ≠ none := by
  cases k with
  | zero => simp [Play.polled_zero, Play.transaction, h0]
  | succ k => simp [Play.transaction_polled_succ, hb]

/-- A step of `wait` at a pending command is a poll, or ENGINE's, which records UNINIT or leaves the block idle
and the values read as they are. -/
theorem Play.next_wait_of_pending (hp : c.state.pending ≠ none) (hf : c.state.faults = []) (a : Agent) :
    c.next .wait a = .next (c.polled 1) ∨ ∃ t, c.next .wait a = .next ⟨t, c.sent⟩ ∧
      ((∃ x, t.faults = [.uninit x] ∧ c.state.mem.read x = none) ∨
       (t.pending = none ∧ t.faults = [] ∧ t.busy = false ∧ t.observed = c.state.observed)) := by
  rcases c.next_cases .wait a with ⟨hm, -⟩ | ⟨w, -, -, -, he⟩ | ⟨bus, hm, -⟩
  · obtain ⟨b, hb⟩ := Play.mover_isSome (a := a) (Play.enabled_engine (P := .wait).2 ⟨hp, hf⟩)
    simp [hm] at hb
  · obtain ⟨t, ht, hcases⟩ := engineStep_next w c.state
    refine .inr ⟨t, by rw [he, ht]; rfl, ?_⟩
    rcases hcases with ⟨x, hx, rfl⟩ | ⟨v, e, g, hv, -, rfl⟩
    · exact .inl ⟨x, by rw [State.recordFault_of_none _ hf], hx⟩
    · exact .inr ⟨rfl, hv.faults.trans hf, v.finish_busy e g, hv.observed⟩
  · exact .inl (Play.next_wait_of_host hm)

/-- `e` is the end of a `wait` at `c`: BUSY is 0, and the values a whole `wait` has read say so from the last on
and not before. -/
def Play.waitDone (c e : Play) : Prop :=
  e.final .wait = true ∧ e.state.busy = false ∧
    (c.sent = 0 → ∃ (vs : List Word) (v : Word),
      e.state.observed = c.state.observed ++ (vs ++ [v]).map (.register 0x01#6) ∧
      (∀ u ∈ vs, u.getLsbD 0 = true) ∧ v.getLsbD 0 = false)

/-- From the point at which ENGINE has finished, after `k` polls, the run comes to the end of the `wait`. -/
theorem play_wait_of_finished {n k : Nat} {t : State} (hb : c.state.busy = true)
    (hn : play .wait σ c n = ⟨t, c.sent + k⟩) (hp : t.pending = none) (hf : t.faults = []) (hidle : t.busy = false)
    (hobs : t.observed = (c.polled k).state.observed) : ∃ n', c.waitDone (play .wait σ c n') := by
  rcases Play.wait_of_idle (c := ⟨t, c.sent + k⟩) hp hf hidle (σ n) with ⟨hnone, hfinal⟩ | ⟨hnext, hfinal⟩
  · have hpolled : (c.polled k).transaction .wait = Play.transaction .wait ⟨t, c.sent + k⟩ :=
      congrArg (HostProgram.wait (c.sent + k)) hobs.symm
    rw [← hn] at hfinal
    exact ⟨n, hfinal, hn ▸ hidle, fun h0 =>
      absurd (hpolled.trans hnone) (Play.transaction_polled_of_busy hb h0 k)⟩
  · refine ⟨n + 1, ?_⟩
    rw [play_succ_of_eq hn hnext]
    refine ⟨hfinal, hidle, fun _ => ⟨List.replicate k (c.state.regs.status &&& implementedBits .status),
      t.regs.status &&& implementedBits .status, ?observed, fun u hu => ?busy, ?idle⟩⟩
    case observed => simp [Play.polled, hobs, State.pollResult, regNumOf]
    case busy => rw [List.eq_of_mem_replicate hu, State.statusRead_getLsbD_zero, hb]
    case idle => rw [State.statusRead_getLsbD_zero, hidle]

end

/-- Settles O59: the run only polls until ENGINE's step, and after that at most once more. -/
theorem waitDoesNotHang : Obligations.WaitDoesNotHang := by
  intro σ c hfair hp hb hf
  obtain ⟨n, hkept, hnot⟩ := exists_last_pending (fun d => ∃ k, d = c.polled k) hfair
    (fun d ⟨k, hd⟩ => hd ▸ ⟨hp, hf⟩) ⟨0, c.polled_zero.symm⟩
  obtain ⟨k, hk⟩ := hkept n le_rfl
  rcases Play.next_wait_of_pending (c := c.polled k) hp hf (σ n) with hpoll | ⟨t, hstep, hcases⟩
  · exact absurd ⟨k + 1, (play_succ_of_eq hk hpoll).trans (c.polled_polled_one k)⟩ hnot
  · have hnext := play_succ_of_eq hk hstep
    rcases hcases with ⟨x, hfault, hx⟩ | ⟨htp, htf, htb, hobs⟩
    · exact .inr ⟨n + 1, x, by rw [hnext, hfault], hx⟩
    · obtain ⟨n', hfinal, hdone⟩ := play_wait_of_finished hb hnext htp htf htb hobs
      exact .inl ⟨⟨n', hfinal, hdone⟩, fun ⟨_, hnever⟩ => by simp [hnever n'] at hfinal⟩

end Sys2Proof.Machine
end
